-- ==== Sys2Proof/Word.lean ====
section
/-! DEFINITION. The widths of CORE: bytes, 16-bit addresses and 32-bit words (spec/00_scope.md R6, R8).
A register, a stack entry and the program counter are words; a register operand is one byte. -/

namespace Sys2Proof

/-- `u8` of R8: a memory byte, an opcode byte, an operand byte. -/
abbrev Byte := BitVec 8

/-- `u16` of R8: an address operand (R73). -/
abbrev Addr := BitVec 16

/-- `u32` of R8: a register, a stack entry, the program counter, an immediate (XLEN = PCLEN = 32, R6). -/
abbrev Word := BitVec 32

/-- A register operand: one byte, used unchanged, not yet checked against REG_COUNT (R72). -/
abbrev RegIdx := BitVec 8

end Sys2Proof
end

