-- ==== Sys2Proof/Syntax.lean ====
section
/-! DEFINITION. The 26 instructions of CORE (spec/30_encoding.md R75; spec/opcode_table.json, in its order),
their mnemonics and the six operand formats (R71). The set is closed (spec/40_engine.md R108). -/

namespace Sys2Proof

/-- The 26 mnemonics, in the order of R75. -/
inductive Mnemonic where
  | halt | load | move | add | sub | mul | xor | and | or | not | loadMem | storeMem | jmp | jz | jnz | cmp
  | push | pop | call | ret | random | shiftL | shiftR | rotL | rotR | mod
  deriving DecidableEq, Repr

/-- The six formats of R71: no operand, one, two and three registers, register and immediate, address. -/
inductive Format where
  | n | r | rr | rrr | ri | a
  deriving DecidableEq, Repr

/-- An instruction with its operands as the decoder reads them (R71 to R74). Operand roles and order are R75's.
A register operand may be any byte: the decoder "performs no semantic validation" (R82). -/
inductive Instr where
  | halt
  | load (rd : RegIdx) (imm : Word)
  | move (rd rs : RegIdx)
  | add (rd rs1 rs2 : RegIdx)
  | sub (rd rs1 rs2 : RegIdx)
  | mul (rd rs1 rs2 : RegIdx)
  | xor (rd rs1 rs2 : RegIdx)
  | and (rd rs1 rs2 : RegIdx)
  | or (rd rs1 rs2 : RegIdx)
  | not (rd rs : RegIdx)
  | loadMem (rd ra : RegIdx)
  | storeMem (rs ra : RegIdx)
  | jmp (addr : Addr)
  | jz (addr : Addr)
  | jnz (addr : Addr)
  | cmp (rs1 rs2 : RegIdx)
  | push (rs : RegIdx)
  | pop (rd : RegIdx)
  | call (addr : Addr)
  | ret
  | random (rd : RegIdx)
  | shiftL (rd rs1 rs2 : RegIdx)
  | shiftR (rd rs1 rs2 : RegIdx)
  | rotL (rd rs1 rs2 : RegIdx)
  | rotR (rd rs1 rs2 : RegIdx)
  | mod (rd rs1 rs2 : RegIdx)
  deriving DecidableEq, Repr

end Sys2Proof
end

