-- ==== Sys2Proof/Config.lean ====
section
/-! DEFINITION. What an implementation of CORE fixes: the parameters of spec/00_scope.md R6 with the constraints
of R7, and the one free value, the randomness source (spec/41_register_moves.md R132). The parameters the engine
reads are `Config`; those only the host uses, which R6 leaves OPEN, are `HostParams`. -/

namespace Sys2Proof

/-- `OPCODE_MAP` of R6 and R76: the byte value of each mnemonic. -/
structure OpcodeMap where
  halt : Byte
  load : Byte
  move : Byte
  add : Byte
  sub : Byte
  mul : Byte
  xor : Byte
  and : Byte
  or : Byte
  not : Byte
  loadMem : Byte
  storeMem : Byte
  jmp : Byte
  jz : Byte
  jnz : Byte
  cmp : Byte
  push : Byte
  pop : Byte
  call : Byte
  ret : Byte
  random : Byte
  shiftL : Byte
  shiftR : Byte
  rotL : Byte
  rotR : Byte
  mod : Byte
  deriving DecidableEq, Repr

/-- The 26 byte values, in the order of the mnemonics. -/
def OpcodeMap.bytes (m : OpcodeMap) : List Byte :=
  [m.halt, m.load, m.move, m.add, m.sub, m.mul, m.xor, m.and, m.or, m.not, m.loadMem, m.storeMem, m.jmp, m.jz,
   m.jnz, m.cmp, m.push, m.pop, m.call, m.ret, m.random, m.shiftL, m.shiftR, m.rotL, m.rotR, m.mod]

/-- R7: 26 different byte values, none of them 0xFF. -/
def OpcodeMap.valid (m : OpcodeMap) : Bool :=
  decide m.bytes.Nodup && !m.bytes.contains 0xFF#8

/-- The parameters of R6 that the engine reads. A field's default is R6's. -/
structure Config where
  /-- `MEM_SIZE`, in bytes. -/
  memSize : Nat := 1024
  /-- `REG_COUNT`. -/
  regCount : Nat := 16
  /-- `STACK_DEPTH`, in entries. -/
  stackDepth : Nat := 256
  /-- `CODE_CAPACITY`, the largest program the loader accepts. -/
  codeCapacity : Nat := memSize
  /-- `OPCODE_MAP`. -/
  opcodeMap : OpcodeMap
  deriving DecidableEq, Repr

/-- R7, the constraints on the parameters the engine reads (`0 <= STACK_DEPTH` holds of every natural). -/
def Config.valid (c : Config) : Bool :=
  decide (1 ≤ c.memSize) && decide (c.memSize ≤ 2 ^ 32 - 8) && decide (1 ≤ c.regCount) && decide (c.regCount ≤ 256)
    && decide (c.codeCapacity ≤ c.memSize) && c.opcodeMap.valid

/-- The OPEN parameters of R6, and the host's budget (spec/92_eei_decisions.md D13). No source gives them a value, so
they are arguments of the host's transactions and have no default (log 4). -/
structure HostParams where
  /-- `INPUT_BASE`. -/
  inputBase : Nat
  /-- `INPUT_CAPACITY`, in bytes. -/
  inputCapacity : Nat
  /-- `RESULT_REG`. -/
  resultReg : RegIdx
  /-- `BUDGET`, in steps. -/
  budget : Nat
  deriving DecidableEq, Repr

/-- R7, the constraints on the host's parameters. -/
def HostParams.valid (c : Config) (h : HostParams) : Bool :=
  decide (h.inputBase + h.inputCapacity ≤ c.memSize) && decide (h.resultReg.toNat < c.regCount)

/-- The bits `sp` needs: `ceil(log2(STACK_DEPTH+1))` of spec/10_state.md R36. -/
def Config.spBits (c : Config) : Nat := Nat.clog 2 (c.stackDepth + 1)

/-- The bits `code_len` needs: `ceil(log2(CODE_CAPACITY+1))` of R36. -/
def Config.codeLenBits (c : Config) : Nat := Nat.clog 2 (c.codeCapacity + 1)

/-- FREE VALUE: the byte the randomness source gives to the n-th executed RANDOM, "under no law" (R37, R132; parameter
`RAND` of R6). It has no body, so a claim that mentions it holds whatever the source gives (log 5). One stream
serves every instance: DESIGN CHOICE (log 5). -/
opaque Config.randByte : Nat → Byte

end Sys2Proof
end

