-- ==== Sys2Proof/WellFormed.lean ====
section
/-! DEFINITION. Well-formed instructions: every register operand names a register (spec/10_state.md R23,
spec/30_encoding.md R72). Nothing else can be wrong with an instruction (R77: any address and any immediate is legal).
An ill-formed instruction decodes; the engine faults on it (spec/40_engine.md R107). -/

namespace Sys2Proof

/-- The register operands of an instruction, destination or source, in assembler order (R22, R75). -/
def Instr.regs : Instr → List RegIdx
  | .halt | .jmp _ | .jz _ | .jnz _ | .call _ | .ret => []
  | .load rd _ | .pop rd | .random rd => [rd]
  | .push rs => [rs]
  | .move rd rs | .not rd rs => [rd, rs]
  | .loadMem rd ra => [rd, ra]
  | .storeMem rs ra => [rs, ra]
  | .cmp rs1 rs2 => [rs1, rs2]
  | .add rd rs1 rs2 | .sub rd rs1 rs2 | .mul rd rs1 rs2 | .xor rd rs1 rs2 | .and rd rs1 rs2 | .or rd rs1 rs2
  | .shiftL rd rs1 rs2 | .shiftR rd rs1 rs2 | .rotL rd rs1 rs2 | .rotR rd rs1 rs2 | .mod rd rs1 rs2 => [rd, rs1, rs2]

/-- The register an instruction writes, if any (the right column of R22). -/
def Instr.destReg : Instr → Option RegIdx
  | .halt | .jmp _ | .jz _ | .jnz _ | .call _ | .ret | .storeMem _ _ | .cmp _ _ | .push _ => none
  | .load rd _ | .pop rd | .random rd | .move rd _ | .not rd _ | .loadMem rd _ => some rd
  | .add rd _ _ | .sub rd _ _ | .mul rd _ _ | .xor rd _ _ | .and rd _ _ | .or rd _ _
  | .shiftL rd _ _ | .shiftR rd _ _ | .rotL rd _ _ | .rotR rd _ _ | .mod rd _ _ => some rd

/-- Every register operand is below REG_COUNT (R23). -/
def Instr.wf (c : Config) (i : Instr) : Bool := i.regs.all fun r => decide (r.toNat < c.regCount)

end Sys2Proof
end

