-- ==== Sys2Proof/Decode.lean ====
section
/-! DEFINITION. The decoder and the encoder, from the tables of spec/30_encoding.md (R70 to R82), for any opcode map,
with the default map of R75 and the default configuration of spec/00_scope.md R6. The decoder is total on any list of
bytes and rejects by name. Its only failures on a list that has an opcode byte are an unrecognized opcode and a missing
operand byte (R82). -/

namespace Sys2Proof

/-- The mnemonics in the order of R75. -/
def Mnemonic.all : List Mnemonic :=
  [.halt, .load, .move, .add, .sub, .mul, .xor, .and, .or, .not, .loadMem, .storeMem, .jmp, .jz, .jnz, .cmp, .push,
   .pop, .call, .ret, .random, .shiftL, .shiftR, .rotL, .rotR, .mod]

/-- The format column of R75. -/
def Mnemonic.format : Mnemonic → Format
  | .halt | .ret => .n
  | .push | .pop | .random => .r
  | .move | .not | .loadMem | .storeMem | .cmp => .rr
  | .add | .sub | .mul | .xor | .and | .or | .shiftL | .shiftR | .rotL | .rotR | .mod => .rrr
  | .load => .ri
  | .jmp | .jz | .jnz | .call => .a

/-- The length column of R71, in bytes, opcode included. -/
def Format.length : Format → Nat
  | .n => 1
  | .r => 2
  | .rr => 3
  | .rrr => 4
  | .ri => 6
  | .a => 3

/-- The longest instruction, in bytes (R78). -/
def maxLength : Nat := 6

def Instr.mnemonic : Instr → Mnemonic
  | .halt => .halt
  | .load _ _ => .load
  | .move _ _ => .move
  | .add _ _ _ => .add
  | .sub _ _ _ => .sub
  | .mul _ _ _ => .mul
  | .xor _ _ _ => .xor
  | .and _ _ _ => .and
  | .or _ _ _ => .or
  | .not _ _ => .not
  | .loadMem _ _ => .loadMem
  | .storeMem _ _ => .storeMem
  | .jmp _ => .jmp
  | .jz _ => .jz
  | .jnz _ => .jnz
  | .cmp _ _ => .cmp
  | .push _ => .push
  | .pop _ => .pop
  | .call _ => .call
  | .ret => .ret
  | .random _ => .random
  | .shiftL _ _ _ => .shiftL
  | .shiftR _ _ _ => .shiftR
  | .rotL _ _ _ => .rotL
  | .rotR _ _ _ => .rotR
  | .mod _ _ _ => .mod

/-- The length of an instruction in bytes: its opcode alone decides it (R70, R78). -/
def Instr.length (i : Instr) : Nat := i.mnemonic.format.length

/-! ## The opcode map -/

/-- The default `OPCODE_MAP` of R75. -/
def OpcodeMap.default : OpcodeMap where
  halt := 0x00
  load := 0x01
  move := 0x02
  add := 0x03
  sub := 0x04
  mul := 0x05
  xor := 0x06
  and := 0x07
  or := 0x08
  not := 0x09
  loadMem := 0x0A
  storeMem := 0x0B
  jmp := 0x0C
  jz := 0x0D
  jnz := 0x0E
  cmp := 0x0F
  push := 0x10
  pop := 0x11
  call := 0x12
  ret := 0x13
  random := 0x14
  shiftL := 0x15
  shiftR := 0x16
  rotL := 0x17
  rotR := 0x18
  mod := 0x19

/-- The defaults of R6: MEM_SIZE 1024, REG_COUNT 16, STACK_DEPTH 256, CODE_CAPACITY = MEM_SIZE, the map of R75. -/
def Config.default : Config := { opcodeMap := OpcodeMap.default }

/-- The byte the map gives a mnemonic. -/
def OpcodeMap.byteOf (m : OpcodeMap) : Mnemonic → Byte
  | .halt => m.halt
  | .load => m.load
  | .move => m.move
  | .add => m.add
  | .sub => m.sub
  | .mul => m.mul
  | .xor => m.xor
  | .and => m.and
  | .or => m.or
  | .not => m.not
  | .loadMem => m.loadMem
  | .storeMem => m.storeMem
  | .jmp => m.jmp
  | .jz => m.jz
  | .jnz => m.jnz
  | .cmp => m.cmp
  | .push => m.push
  | .pop => m.pop
  | .call => m.call
  | .ret => m.ret
  | .random => m.random
  | .shiftL => m.shiftL
  | .shiftR => m.shiftR
  | .rotL => m.rotL
  | .rotR => m.rotR
  | .mod => m.mod

/-- The mnemonic the map assigns a byte to, if any (R77: a byte it does not assign is unrecognized). -/
def OpcodeMap.ofByte (m : OpcodeMap) (b : Byte) : Option Mnemonic :=
  Mnemonic.all.find? fun n => m.byteOf n == b

/-! ## Operand assembly, big-endian (R56, R73, R74) -/

/-- R73: `(b1 << 8) | b2`. -/
def be16 (b1 b2 : Byte) : Addr := b1 ++ b2

/-- R74: `(b1 << 24) | (b2 << 16) | (b3 << 8) | b4`. -/
def be32 (b1 b2 b3 b4 : Byte) : Word := b1 ++ b2 ++ b3 ++ b4

/-- The bytes of an address operand, the more significant first. -/
def be16Bytes (a : Addr) : List Byte := [a.extractLsb' 8 8, a.extractLsb' 0 8]

/-- The bytes of an immediate, the most significant first. -/
def be32Bytes (v : Word) : List Byte :=
  [v.extractLsb' 24 8, v.extractLsb' 16 8, v.extractLsb' 8 8, v.extractLsb' 0 8]

/-! ## The decoder -/

/-- What the decoder answers on a list of bytes: the instruction with the bytes that follow it, or a rejection. -/
inductive Decoded where
  /-- the instruction, and the bytes after its last operand byte -/
  | ok (i : Instr) (rest : List Byte)
  /-- the opcode byte is not assigned by the map (R77, R105) -/
  | unknownOpcode
  /-- an operand byte is missing (R106) -/
  | truncated
  /-- there is no opcode byte -/
  | noByte
  deriving DecidableEq, Repr

/-- Format R: one register byte. -/
def operandsR (mk : RegIdx → Instr) : List Byte → Decoded
  | r :: bs => .ok (mk r) bs
  | _ => .truncated

/-- Format RR: two register bytes. -/
def operandsRR (mk : RegIdx → RegIdx → Instr) : List Byte → Decoded
  | r1 :: r2 :: bs => .ok (mk r1 r2) bs
  | _ => .truncated

/-- Format RRR: three register bytes. -/
def operandsRRR (mk : RegIdx → RegIdx → RegIdx → Instr) : List Byte → Decoded
  | rd :: rs1 :: rs2 :: bs => .ok (mk rd rs1 rs2) bs
  | _ => .truncated

/-- Format RI: a register byte and a big-endian immediate. -/
def operandsRI (mk : RegIdx → Word → Instr) : List Byte → Decoded
  | rd :: b1 :: b2 :: b3 :: b4 :: bs => .ok (mk rd (be32 b1 b2 b3 b4)) bs
  | _ => .truncated

/-- Format A: a big-endian address. -/
def operandsA (mk : Addr → Instr) : List Byte → Decoded
  | b1 :: b2 :: bs => .ok (mk (be16 b1 b2)) bs
  | _ => .truncated

/-- The operand bytes of each mnemonic, in the order of R75. -/
def decodeOperands : Mnemonic → List Byte → Decoded
  | .halt, bs => .ok .halt bs
  | .load, bs => operandsRI .load bs
  | .move, bs => operandsRR .move bs
  | .add, bs => operandsRRR .add bs
  | .sub, bs => operandsRRR .sub bs
  | .mul, bs => operandsRRR .mul bs
  | .xor, bs => operandsRRR .xor bs
  | .and, bs => operandsRRR .and bs
  | .or, bs => operandsRRR .or bs
  | .not, bs => operandsRR .not bs
  | .loadMem, bs => operandsRR .loadMem bs
  | .storeMem, bs => operandsRR .storeMem bs
  | .jmp, bs => operandsA .jmp bs
  | .jz, bs => operandsA .jz bs
  | .jnz, bs => operandsA .jnz bs
  | .cmp, bs => operandsRR .cmp bs
  | .push, bs => operandsR .push bs
  | .pop, bs => operandsR .pop bs
  | .call, bs => operandsA .call bs
  | .ret, bs => .ok .ret bs
  | .random, bs => operandsR .random bs
  | .shiftL, bs => operandsRRR .shiftL bs
  | .shiftR, bs => operandsRRR .shiftR bs
  | .rotL, bs => operandsRRR .rotL bs
  | .rotR, bs => operandsRRR .rotR bs
  | .mod, bs => operandsRRR .mod bs

/-- The decoder of R82, on the bytes from the opcode byte on. -/
def decode (m : OpcodeMap) : List Byte → Decoded
  | [] => .noByte
  | op :: bs =>
    match m.ofByte op with
    | none => .unknownOpcode
    | some n => decodeOperands n bs

/-! ## The encoder -/

/-- The operand bytes of an instruction (R71). -/
def Instr.operandBytes : Instr → List Byte
  | .halt | .ret => []
  | .load rd imm => rd :: be32Bytes imm
  | .push r | .pop r | .random r => [r]
  | .move r1 r2 | .not r1 r2 | .loadMem r1 r2 | .storeMem r1 r2 | .cmp r1 r2 => [r1, r2]
  | .add rd rs1 rs2 | .sub rd rs1 rs2 | .mul rd rs1 rs2 | .xor rd rs1 rs2 | .and rd rs1 rs2 | .or rd rs1 rs2
  | .shiftL rd rs1 rs2 | .shiftR rd rs1 rs2 | .rotL rd rs1 rs2 | .rotR rd rs1 rs2 | .mod rd rs1 rs2 => [rd, rs1, rs2]
  | .jmp addr | .jz addr | .jnz addr | .call addr => be16Bytes addr

/-- The bytes of an instruction, in address order: the opcode byte, then the operand bytes (R70). -/
def encode (m : OpcodeMap) (i : Instr) : List Byte := m.byteOf i.mnemonic :: i.operandBytes

/-! ## Words as spec/opcode_table.json numbers them -/

/-- The bytes of a table word in address order, `maxLength` of them: byte k is bits 8k+7 .. 8k, and every bit at or above
`nbits` is 0. -/
def tableBytes (nbits w : Nat) : List Byte :=
  (List.range maxLength).map fun k => BitVec.ofNat 8 ((w % 2 ^ nbits) / 2 ^ (8 * k))

/-- The instruction the decoder reads from a table word, under the default opcode map. -/
def decodeTableWord (nbits w : Nat) : Option Instr :=
  match decode OpcodeMap.default (tableBytes nbits w) with
  | .ok i _ => some i
  | _ => none

end Sys2Proof
end

