-- ==== Sys2Proof/Machine/State.lean ====
section
/-! DEFINITION. The state of CORE as plain data (spec/10_state.md R20: the list is complete), the state after reset
(R40), and the reasons a step of the model can stop. A fault of the SPEC is no stop of the model: it is a next state
with status FAULTED (spec/40_engine.md R109). -/

namespace Sys2Proof.Machine

/-- `status` of R33. -/
inductive Status where
  | ready | running | halted | faulted
  deriving DecidableEq, Repr

/-- `stop_reason` of R35. -/
inductive StopReason where
  | none | halt | programCounterExhausted | unknownOpcode | stackOverflow | stackUnderflow | divideOrModuloByZero
  | invalidRegister | truncatedInstruction | budgetExhausted
  deriving DecidableEq, Repr

/-- The contents of memory: the cells that do not read as reset memory does, in rising order of address. -/
abbrev Memory := List Host.Cell

/-- The architectural state of R20, and three fields of the model's own: `cfg`, `programLoaded` and `draws`
(logs 3, 5 and 6). `running` is no field: R34 makes it a function of `status`. -/
structure State where
  /-- the parameters of this machine, fixed at its creation (R6; the model's own field) -/
  cfg : Config
  /-- `x[0 .. REG_COUNT-1]` (R21) -/
  regs : List Word
  /-- `pc` (R24) -/
  pc : Word
  /-- the comparison flag (R27) -/
  flag : Bool
  /-- `stk[0 .. STACK_DEPTH-1]` (R28) -/
  stk : List Word
  /-- `sp` (R28), a natural in `0 .. STACK_DEPTH` -/
  sp : Nat
  /-- `mem[0 .. MEM_SIZE-1]` (R31) -/
  mem : Memory
  /-- `code_len` (R32) -/
  codeLen : Nat
  /-- `status` (R33) -/
  status : Status
  /-- `stop_reason` (R35) -/
  stopReason : StopReason
  /-- whether one `load_program` has returned OK (R282, R285; the model's own field) -/
  programLoaded : Bool
  /-- how many draws RANDOM has consumed (R132; the model's own field) -/
  draws : Nat
  deriving DecidableEq, Repr

/-- Why the model stops with a fault. -/
inductive Fault where
  /-- An access at an address at or above MEM_SIZE, which does not exist (spec/20_memory.md R52, R53). Raised by the
  opcode fetch of a step, by LOAD_MEM and STORE_MEM, and by the loader. No state with `State.Inv` reaches it. Safe: the
  machine is never in such a state (R26, R54). -/
  | outsideMemory (addr : Nat)
  deriving DecidableEq, Repr

/-- Why the model refuses. -/
inductive Refusal where
  /-- An arm of exec that has no meaning. No arm raises it: every instruction has its meaning. Safe. -/
  | notModelled (mnemonic : String)
  /-- A configuration that breaks R7, refused by `createInstance`, and by `loadInput` for the host's parameters. Safe: R7 and
  U18 ask for it. -/
  | invalidConfiguration
  /-- `load_program` outside the boot protocol of R285, refused by `loadProgram`. Safe: U17, no transition. -/
  | loadProgramNotLegal
  /-- `load_input` outside the boot protocol of R285, refused by `loadInput`. Safe: U17, no transition. -/
  | loadInputNotLegal
  /-- An input longer than INPUT_CAPACITY (R283), refused by `loadInput`. Safe: U17, no transition. -/
  | inputTooLong
  deriving DecidableEq, Repr

/-- The outcome of running one instruction or one step. -/
abbrev Result := Host.Outcome State Fault Refusal

/-- The state after instance creation with the parameters `c` (R40, R280): everything zero, status READY, stop reason
NONE, memory with nothing listed. -/
def State.resetWith (c : Config) : State where
  cfg := c
  regs := List.replicate c.regCount 0#32
  pc := 0#32
  flag := false
  stk := List.replicate c.stackDepth 0#32
  sp := 0
  mem := []
  codeLen := 0
  status := .ready
  stopReason := .none
  programLoaded := false
  draws := 0

/-- The machine right after reset, with the default parameters of R6 (logs 1 and 2). -/
def State.reset : State := State.resetWith Config.default

end Sys2Proof.Machine
end

