-- ==== Sys2Proof/Machine/Ops.lean ====
section
/-! DEFINITION. The named operations over CORE's state that the instructions and the engine share: memory, registers,
the stack, and taking a fault or a halt. There is no return from a fault (spec/60_exceptions.md R255). -/

namespace Sys2Proof.Machine

/-! ## Memory (spec/20_memory.md) -/

/-- What an unlisted address reads as: the reset contents, zero (R40, R67). -/
def Memory.unlisted : Byte := 0#8

/-- The byte at an address. -/
def Memory.read : Memory → Nat → Byte
  | [], _ => Memory.unlisted
  | (b, v) :: m, a => if b = a then v else Memory.read m a

/-- A cell for the byte, unless it is what an unlisted address reads as. -/
def Memory.cell (a : Nat) (v : Byte) : Memory := if v = Memory.unlisted then [] else [(a, v)]

/-- The memory with the byte at one address replaced, in canonical form. -/
def Memory.write : Memory → Nat → Byte → Memory
  | [], a, v => Memory.cell a v
  | (b, w) :: m, a, v =>
    if a < b then Memory.cell a v ++ (b, w) :: m
    else if a = b then Memory.cell a v ++ m
    else (b, w) :: Memory.write m a v

/-- Addresses strictly rising from `lo` on, and no cell equal to what an unlisted address reads as. -/
def Memory.wfFrom : Nat → Memory → Bool
  | _, [] => true
  | lo, (a, v) :: m => decide (lo ≤ a) && v != Memory.unlisted && Memory.wfFrom (a + 1) m

/-- The canonical form of memory. -/
def Memory.wf (m : Memory) : Bool := Memory.wfFrom 0 m

/-- Every listed address is below `n`. -/
def Memory.below (n : Nat) (m : Memory) : Bool := m.all fun c => decide (c.1 < n)

/-- `MemRead(addr, 1)` of R53: defined only for `addr < MEM_SIZE`. -/
def State.memRead (s : State) (a : Nat) : Option Byte :=
  if a < s.cfg.memSize then some (s.mem.read a) else none

/-- `MemWrite(addr, 1, v)` of R53: defined only for `addr < MEM_SIZE`. -/
def State.memWrite (s : State) (a : Nat) (v : Byte) : Option State :=
  if a < s.cfg.memSize then some { s with mem := s.mem.write a v } else none

/-- `Fetch8(a)` of R52: code and data share one memory (R50), so a fetch sees every earlier store (R64). -/
def State.fetch8 (s : State) (a : Nat) : Option Byte := s.memRead a

/-! ## Registers, program counter (spec/10_state.md) -/

/-- `r < REG_COUNT` (R23). -/
def State.regValid (s : State) (r : RegIdx) : Bool := decide (r.toNat < s.cfg.regCount)

/-- `x[r]` of R21. -/
def State.readReg (s : State) (r : RegIdx) : Word := s.regs.getD r.toNat 0#32

/-- `x[r] <- v` of R21. -/
def State.writeReg (s : State) (r : RegIdx) (v : Word) : State := { s with regs := s.regs.set r.toNat v }

/-- `pc <- target` of R24. -/
def State.setPc (s : State) (target : Word) : State := { s with pc := target }

/-- `pc <- pc + n`: past the bytes the decoder has read (spec/40_engine.md R104, R106). -/
def State.advance (s : State) (n : Nat) : State := s.setPc (s.pc + BitVec.ofNat 32 n)

/-! ## Status: starting, taking a fault, halting -/

/-- `running` of R34. -/
def State.running (s : State) : Bool := decide (s.status = .running)

/-- HALTED or FAULTED (R33). -/
def State.terminal (s : State) : Bool := decide (s.status = .halted) || decide (s.status = .faulted)

/-- Ready → Running on the first step (R102); from RUNNING nothing changes. -/
def State.start (s : State) : State := { s with status := .running }

/-- TAKING A FAULT, `raise Fault(reason)` of R109: status and stop reason are written and nothing else. `pc` keeps what
the engine had set when the fault was raised; no other register saves anything and there is no handler (R254). -/
def State.raise (s : State) (reason : StopReason) : State := { s with status := .faulted, stopReason := reason }

/-- `Halt(reason)` of R103 and R200. -/
def State.haltWith (s : State) (reason : StopReason) : State := { s with status := .halted, stopReason := reason }

/-! ## The stack (spec/45_stack.md) -/

/-- `Push(v)` of R230: no state where the stack is full, checked before any write. -/
def State.push (s : State) (v : Word) : Option State :=
  if s.sp = s.cfg.stackDepth then none else some { s with stk := s.stk.set s.sp v, sp := s.sp + 1 }

/-- `Pop()` of R231: nothing where the stack is empty; the entry read stays in place (R29). -/
def State.pop (s : State) : Option (Word × State) :=
  if s.sp = 0 then none else some (s.stk.getD (s.sp - 1) 0#32, { s with sp := s.sp - 1 })

/-- A body that pushes `v` and then goes on, or raises STACK_OVERFLOW (R230). -/
def State.pushThen (s : State) (v : Word) (k : State → State) : Result :=
  match s.push v with
  | none => .next (s.raise .stackOverflow)
  | some t => .next (k t)

/-- A body that pops a value and then goes on with it, or raises STACK_UNDERFLOW (R231). -/
def State.popThen (s : State) (k : Word → State → State) : Result :=
  match s.pop with
  | none => .next (s.raise .stackUnderflow)
  | some (v, t) => .next (k v t)

end Sys2Proof.Machine
end

