-- ==== Sys2Proof/Machine/Operands.lean ====
section
/-! DEFINITION. The operand forms of CORE: register operands and their check (spec/40_engine.md R107), the one data
addressing mode (spec/20_memory.md R54), the widening and narrowing of a byte (R55), the absolute target (spec/30_encoding.md
R73), the shift amount (spec/42_alu.md section 3), and the bodies that several instructions share. -/

namespace Sys2Proof.Machine

/-- R107: every register operand is checked before any register, flag, stack or memory access. -/
def State.checkRegs (s : State) (rs : List RegIdx) (body : Result) : Result :=
  if rs.all s.regValid then body else .next (s.raise .invalidRegister)

/-- `zext_32` of a byte: "mask, never sign-extend" (R55). -/
def zextByte (b : Byte) : Word := b.setWidth 32

/-- `zext_32` of an address operand (R73): every target is absolute. -/
def zextAddr (a : Addr) : Word := a.setWidth 32

/-- `trunc_8` of a register value (R55). -/
def truncByte (v : Word) : Byte := v.setWidth 8

/-- R54: `x[ra] mod MEM_SIZE`. -/
def State.dataAddr (s : State) (ra : RegIdx) : Nat := (s.readReg ra).toNat % s.cfg.memSize

/-- The amount of a shift or rotate: `x[rs2] & 31`. -/
def shiftAmount (v : Word) : Nat := (v &&& 31#32).toNat

/-- A two-register instruction that computes `x[rd]` from one source. -/
def State.unary (s : State) (f : Word → Word) (rd rs : RegIdx) : Result :=
  s.checkRegs [rd, rs] (.next (s.writeReg rd (f (s.readReg rs))))

/-- A three-register instruction: `x[rd] <- f x[rs1] x[rs2]`, the sources read before the write (R110). -/
def State.binary (s : State) (f : Word → Word → Word) (rd rs1 rs2 : RegIdx) : Result :=
  s.checkRegs [rd, rs1, rs2] (.next (s.writeReg rd (f (s.readReg rs1) (s.readReg rs2))))

end Sys2Proof.Machine
end

