-- ==== Sys2Proof/Machine/Flags.lean ====
section
/-! DEFINITION. The one flag of CORE (spec/10_state.md R27): CMP computes it (spec/44_control_flow.md R204), and JZ and JNZ
jump on it (R202, R203). No other instruction reads or writes it. -/

namespace Sys2Proof.Machine

/-- R204: the flag says whether the two values are equal. -/
def equalFlag (a b : Word) : Bool := decide (a = b)

/-- `flag <- b`. -/
def State.setFlag (s : State) (b : Bool) : State := { s with flag := b }

/-- A jump taken on a condition; otherwise `pc` stays at npc (R202, R203). -/
def State.jumpIf (s : State) (taken : Bool) (addr : Addr) : State :=
  if taken then s.setPc (zextAddr addr) else s

end Sys2Proof.Machine
end

