-- ==== Sys2Proof/Machine/Alu.lean ====
section
/-! DEFINITION. Arithmetic, logic, shifts, rotates and modulo (spec/42_alu.md). None of them writes the flag, memory or the
stack (R170). -/

namespace Sys2Proof.Machine

/-- R159: `((v << k) mod 2^32) | (v >> (32 - k))`, the identity for `k = 0`. -/
def rotateLeft (v : Word) (k : Nat) : Word := if k = 0 then v else (v <<< k) ||| (v >>> (32 - k))

/-- R160: `(v >> k) | ((v << (32 - k)) mod 2^32)`, the identity for `k = 0`. -/
def rotateRight (v : Word) (k : Nat) : Word := if k = 0 then v else (v >>> k) ||| (v <<< (32 - k))

/-- R150: wrapping addition. -/
def execAdd (rd rs1 rs2 : RegIdx) (s : State) : Result := s.binary (fun a b => a + b) rd rs1 rs2

/-- R151: wrapping subtraction, the minuend first. -/
def execSub (rd rs1 rs2 : RegIdx) (s : State) : Result := s.binary (fun a b => a - b) rd rs1 rs2

/-- R152: wrapping multiplication, the low word. -/
def execMul (rd rs1 rs2 : RegIdx) (s : State) : Result := s.binary (fun a b => a * b) rd rs1 rs2

/-- R153: exclusive or. -/
def execXor (rd rs1 rs2 : RegIdx) (s : State) : Result := s.binary (fun a b => a ^^^ b) rd rs1 rs2

/-- R154: and. -/
def execAnd (rd rs1 rs2 : RegIdx) (s : State) : Result := s.binary (fun a b => a &&& b) rd rs1 rs2

/-- R155: inclusive or. -/
def execOr (rd rs1 rs2 : RegIdx) (s : State) : Result := s.binary (fun a b => a ||| b) rd rs1 rs2

/-- R156: complement. -/
def execNot (rd rs : RegIdx) (s : State) : Result := s.unary (fun v => ~~~v) rd rs

/-- R157: logical shift left. -/
def execShiftL (rd rs1 rs2 : RegIdx) (s : State) : Result := s.binary (fun v a => v <<< shiftAmount a) rd rs1 rs2

/-- R158: logical shift right. -/
def execShiftR (rd rs1 rs2 : RegIdx) (s : State) : Result := s.binary (fun v a => v >>> shiftAmount a) rd rs1 rs2

/-- R159: rotate left. -/
def execRotL (rd rs1 rs2 : RegIdx) (s : State) : Result :=
  s.binary (fun v a => rotateLeft v (shiftAmount a)) rd rs1 rs2

/-- R160: rotate right. -/
def execRotR (rd rs1 rs2 : RegIdx) (s : State) : Result :=
  s.binary (fun v a => rotateRight v (shiftAmount a)) rd rs1 rs2

/-- R161: unsigned remainder; a zero divisor raises DIVIDE_OR_MODULO_BY_ZERO before anything is written (R111). -/
def execMod (rd rs1 rs2 : RegIdx) (s : State) : Result :=
  s.checkRegs [rd, rs1, rs2]
    (if s.readReg rs2 = 0#32 then .next (s.raise .divideOrModuloByZero)
     else .next (s.writeReg rd (s.readReg rs1 % s.readReg rs2)))

end Sys2Proof.Machine
end

