-- ==== Sys2Proof/Machine/ControlFlow.lean ====
section
/-! DEFINITION. HALT, JMP, JZ, JNZ and CMP (spec/44_control_flow.md). Every target is absolute; a target at or above
`code_len` is legal and ends the run at the next step (R205). -/

namespace Sys2Proof.Machine

/-- R200: `status <- HALTED; stop_reason <- HALT`; `pc` stays at npc. -/
def execHalt (s : State) : Result := .next (s.haltWith .halt)

/-- R201: `pc <- zext_32(addr16)`. -/
def execJmp (addr : Addr) (s : State) : Result := .next (s.jumpIf true addr)

/-- R202: the jump is taken if the flag is 1. -/
def execJz (addr : Addr) (s : State) : Result := .next (s.jumpIf s.flag addr)

/-- R203: the jump is taken if the flag is 0. -/
def execJnz (addr : Addr) (s : State) : Result := .next (s.jumpIf (!s.flag) addr)

/-- R204: `flag <- (x[rs1] == x[rs2])`. -/
def execCmp (rs1 rs2 : RegIdx) (s : State) : Result :=
  s.checkRegs [rs1, rs2] (.next (s.setFlag (equalFlag (s.readReg rs1) (s.readReg rs2))))

end Sys2Proof.Machine
end

