-- ==== Sys2Proof/Machine/MemoryAccess.lean ====
section
/-! DEFINITION. LOAD_MEM and STORE_MEM (spec/43_memory_access.md): one byte, at `x[ra] mod MEM_SIZE`. -/

namespace Sys2Proof.Machine

/-- R190: `x[rd] <- zext_32(MemRead(addr, 1))`. -/
def execLoadMem (rd ra : RegIdx) (s : State) : Result :=
  s.checkRegs [rd, ra]
    (match s.memRead (s.dataAddr ra) with
     | none => .fault (.outsideMemory (s.dataAddr ra))
     | some b => .next (s.writeReg rd (zextByte b)))

/-- R191: `MemWrite(addr, 1, x[rs] & 0xFF)`. -/
def execStoreMem (rs ra : RegIdx) (s : State) : Result :=
  s.checkRegs [rs, ra]
    (match s.memWrite (s.dataAddr ra) (truncByte (s.readReg rs)) with
     | none => .fault (.outsideMemory (s.dataAddr ra))
     | some t => .next t)

end Sys2Proof.Machine
end

