-- ==== Sys2Proof/Machine/RegisterMoves.lean ====
section
/-! DEFINITION. LOAD, MOVE and RANDOM (spec/41_register_moves.md). -/

namespace Sys2Proof.Machine

/-- R130: `x[rd] <- imm32`. -/
def execLoad (rd : RegIdx) (imm : Word) (s : State) : Result := s.checkRegs [rd] (.next (s.writeReg rd imm))

/-- R131: `x[rd] <- x[rs]`. -/
def execMove (rd rs : RegIdx) (s : State) : Result := s.unary (fun v => v) rd rs

/-- R132 with the draw `b`: `x[rd] <- zext_32(b)`, and one draw is consumed. -/
def randomWith (b : Byte) (rd : RegIdx) (s : State) : Result :=
  s.checkRegs [rd] (.next { s.writeReg rd (zextByte b) with draws := s.draws + 1 })

/-- R132: RANDOM takes the next free byte of the randomness source (log 5). DESIGN CHOICE (log 5): there is one stream, so two
instances (R260) at the same draw count draw the same byte; `stepWith` gives each step a draw of its own. -/
def execRandom (rd : RegIdx) (s : State) : Result := randomWith (Config.randByte s.draws) rd s

end Sys2Proof.Machine
end

