-- ==== Sys2Proof/Machine/Stack.lean ====
section
/-! DEFINITION. PUSH, POP, CALL and RET (spec/45_stack.md). Values and return addresses share one stack, which is not in
memory (spec/10_state.md R30). -/

namespace Sys2Proof.Machine

/-- R232: `Push(x[rs])`. -/
def execPush (rs : RegIdx) (s : State) : Result := s.checkRegs [rs] (s.pushThen (s.readReg rs) fun t => t)

/-- R233: `x[rd] <- Pop()`. -/
def execPop (rd : RegIdx) (s : State) : Result := s.checkRegs [rd] (s.popThen fun v t => t.writeReg rd v)

/-- R234: `Push(zext_32(npc)); pc <- zext_32(addr16)`. The body starts with `pc = npc` (spec/40_engine.md R108). -/
def execCall (addr : Addr) (s : State) : Result := s.pushThen s.pc fun t => t.setPc (zextAddr addr)

/-- R235: `pc <- Pop()`, all 32 bits. -/
def execRet (s : State) : Result := s.popThen fun v t => t.setPc v

end Sys2Proof.Machine
end

