-- ==== Sys2Proof/Machine/Dispatch.lean ====
section
/-! DEFINITION. One arm per instruction: the body of an instruction's rule, run with `pc = npc` and status RUNNING
(spec/40_engine.md R108), its register check included (R107). -/

namespace Sys2Proof.Machine

def exec (i : Instr) (s : State) : Host.Outcome State Fault Refusal :=
  match i with
  | .halt => Sys2Proof.Machine.execHalt s
  | .load rd imm => Sys2Proof.Machine.execLoad rd imm s
  | .move rd rs => Sys2Proof.Machine.execMove rd rs s
  | .add rd rs1 rs2 => Sys2Proof.Machine.execAdd rd rs1 rs2 s
  | .sub rd rs1 rs2 => Sys2Proof.Machine.execSub rd rs1 rs2 s
  | .mul rd rs1 rs2 => Sys2Proof.Machine.execMul rd rs1 rs2 s
  | .xor rd rs1 rs2 => Sys2Proof.Machine.execXor rd rs1 rs2 s
  | .and rd rs1 rs2 => Sys2Proof.Machine.execAnd rd rs1 rs2 s
  | .or rd rs1 rs2 => Sys2Proof.Machine.execOr rd rs1 rs2 s
  | .not rd rs => Sys2Proof.Machine.execNot rd rs s
  | .loadMem rd ra => Sys2Proof.Machine.execLoadMem rd ra s
  | .storeMem rs ra => Sys2Proof.Machine.execStoreMem rs ra s
  | .jmp addr => Sys2Proof.Machine.execJmp addr s
  | .jz addr => Sys2Proof.Machine.execJz addr s
  | .jnz addr => Sys2Proof.Machine.execJnz addr s
  | .cmp rs1 rs2 => Sys2Proof.Machine.execCmp rs1 rs2 s
  | .push rs => Sys2Proof.Machine.execPush rs s
  | .pop rd => Sys2Proof.Machine.execPop rd s
  | .call addr => Sys2Proof.Machine.execCall addr s
  | .ret => Sys2Proof.Machine.execRet s
  | .random rd => Sys2Proof.Machine.execRandom rd s
  | .shiftL rd rs1 rs2 => Sys2Proof.Machine.execShiftL rd rs1 rs2 s
  | .shiftR rd rs1 rs2 => Sys2Proof.Machine.execShiftR rd rs1 rs2 s
  | .rotL rd rs1 rs2 => Sys2Proof.Machine.execRotL rd rs1 rs2 s
  | .rotR rd rs1 rs2 => Sys2Proof.Machine.execRotR rd rs1 rs2 s
  | .mod rd rs1 rs2 => Sys2Proof.Machine.execMod rd rs1 rs2 s

end Sys2Proof.Machine
end

