-- ==== Sys2Proof/Machine/Engine.lean ====
section
/-! DEFINITION. The fetch and decode phase of a step (spec/40_engine.md R100 to R106), over whatever runs the decoded
instruction, and the placing of a word where the next step fetches it. `Machine/Step.lean` ties it to `exec`. -/

namespace Sys2Proof.Machine

/-- The bytes at `a`, `a + 1`, …, at most `n` of them, those below MEM_SIZE (R52, R106). -/
def State.window (s : State) : Nat → Nat → List Byte
  | 0, _ => []
  | n + 1, a =>
    match s.fetch8 a with
    | none => []
    | some b => b :: s.window n (a + 1)

/-- What the decoder reads at `pc`. -/
def State.fetched (s : State) : Decoded := decode s.cfg.opcodeMap (s.window maxLength s.pc.toNat)

/-- One step of R100, with `run` for the body of the decoded instruction: a no-op in a terminal status (R101);
PROGRAM_COUNTER_EXHAUSTED at `pc >= code_len` (R103); UNKNOWN_OPCODE and TRUNCATED_INSTRUCTION with `pc = a + 1` (R105,
R106); else the instruction with `pc = npc` (R106 to R108). -/
def engineStep (run : Instr → State → Result) (s : State) : Result :=
  if s.terminal then .next s
  else if s.codeLen ≤ s.pc.toNat then .next (s.start.haltWith .programCounterExhausted)
  else
    match s.fetched with
    | .noByte => .fault (.outsideMemory s.pc.toNat)
    | .unknownOpcode => .next ((s.start.advance 1).raise .unknownOpcode)
    | .truncated => .next ((s.start.advance 1).raise .truncatedInstruction)
    | .ok i _ => run i (s.start.advance i.length)

/-- Bytes written from `base` on, one after the other; nothing where one falls outside memory. -/
def State.writeBytes (s : State) (base : Nat) : List Byte → Option State
  | [] => some s
  | b :: bs =>
    match s.memWrite base b with
    | none => none
    | some t => t.writeBytes (base + 1) bs

/-- The bytes written from `base` on, those that fall inside memory. -/
def State.pokeBytes (s : State) (base : Nat) : List Byte → State
  | [] => s
  | b :: bs => ((s.memWrite base b).getD s).pokeBytes (base + 1) bs

/-- The state whose next step fetches the table word: a non-terminal status, room for the word at `pc` (else `pc` 0), the
word's bytes there, and a loaded program that reaches its end (log 11). -/
def State.placeWord (s : State) (nbits w : Nat) : State :=
  let s1 := if s.terminal then { s with status := .running, stopReason := .none } else s
  let s2 := if s1.pc.toNat + maxLength ≤ s1.cfg.memSize then s1 else s1.setPc 0#32
  let s3 := s2.pokeBytes s2.pc.toNat (tableBytes nbits w)
  { s3 with codeLen := max s3.codeLen (s3.pc.toNat + max 1 ((nbits + 7) / 8)), programLoaded := true }

end Sys2Proof.Machine
end

