-- ==== Sys2Proof/Machine/Step.lean ====
section
/-! DEFINITION. One step of CORE (spec/40_engine.md R100), and the state in which the next step runs a given word. -/

namespace Sys2Proof.Machine

/-- One `step` transaction, RANDOM's draw taken from the free values of the randomness source. -/
def step (s : State) : Host.Outcome State Fault Refusal := engineStep exec s

/-- `s` with the table word stored where `step` fetches its next instruction, as a loader would leave it: no program is
part of the machine, it is loaded from outside (spec/70_reset_and_hazards.md R282; log 10). -/
def State.withFetchWord (s : State) (nbits w : Nat) : State := s.placeWord nbits w

end Sys2Proof.Machine
end

