-- ==== Sys2Proof/Machine/Transactions.lean ====
section
/-! DEFINITION. The host's transactions (spec/10_state.md R38, spec/70_reset_and_hazards.md sections 1 and 2): instance
creation, `load_program`, `load_input`, `step(rand)` with a given draw, `abort`, `read`, and the boot order with a counted
budget. Each is atomic. A host action outside the boot protocol has no transition (R285): it is refused. -/

namespace Sys2Proof.Machine

/-- `reset`, the creation of an instance (R280); a configuration that breaks R7 is refused. The host's parameters are checked
and not stored: DESIGN CHOICE (log 8). -/
def createInstance (c : Config) (h : HostParams) : Result :=
  if c.valid && h.valid c then .next (State.resetWith c) else .refused .invalidConfiguration

/-- The two answers of `load_program` (R282). -/
inductive LoadAnswer where
  | ok | programTooLarge
  deriving DecidableEq, Repr

/-- `load_program` is legal in READY until one call has returned OK (R38, R285). -/
def State.loadProgramLegal (s : State) : Bool := decide (s.status = .ready) && !s.programLoaded

/-- `load_program(buf, len)` of R282: LOAD_OFFSET is 0; a program that is too large changes nothing. -/
def loadProgram (buf : List Byte) (s : State) : Host.Outcome (LoadAnswer × State) Fault Refusal :=
  if !s.loadProgramLegal then .refused .loadProgramNotLegal
  else if s.cfg.codeCapacity < buf.length then .next (.programTooLarge, s)
  else
    match s.writeBytes 0 buf with
    | none => .fault (.outsideMemory s.cfg.memSize)
    | some t => .next (.ok, { t with codeLen := buf.length, programLoaded := true })

/-- `load_input` is legal in READY after `load_program` (R38, R283). -/
def State.loadInputLegal (s : State) : Bool := decide (s.status = .ready) && s.programLoaded

/-- `load_input(buf, len)` of R283: the bytes go to INPUT_BASE on; a longer input has no transition. DESIGN CHOICE (log 8):
State does not hold the host's parameters, so they are given again here, and those that break R7 are refused here too, before
anything else is tested. -/
def loadInput (h : HostParams) (buf : List Byte) (s : State) : Result :=
  if !h.valid s.cfg then .refused .invalidConfiguration
  else if !s.loadInputLegal then .refused .loadInputNotLegal
  else if h.inputCapacity < buf.length then .refused .inputTooLong
  else
    match s.writeBytes h.inputBase buf with
    | none => .fault (.outsideMemory s.cfg.memSize)
    | some t => .next t

/-- `abort` of spec/40_engine.md R112: BUDGET_EXHAUSTED in READY or RUNNING, a no-op once terminal. -/
def abort (s : State) : State := if s.terminal then s else s.raise .budgetExhausted

/-! ## `step(rand)` with a given draw -/

/-- An instruction with the step's draw given: only RANDOM reads it (R114, R132). -/
def execWith (rand : Byte) (i : Instr) (s : State) : Result :=
  match i with
  | .random rd => randomWith rand rd s
  | _ => exec i s

/-- `step(rand)` of R100. -/
def stepWith (rand : Byte) (s : State) : Result := engineStep (execWith rand) s

/-- A run over the draws of its steps: one step for each, until a stop of the model (R114). -/
def runWith : List Byte → State → Result
  | [], s => .next s
  | r :: rs, s =>
    match stepWith r s with
    | .next t => runWith rs t
    | .fault f => .fault f
    | .refused f => .refused f

/-! ## `read` (R39) -/

/-- The status codes of R33. -/
def Status.code : Status → BitVec 2
  | .ready => 0
  | .running => 1
  | .halted => 2
  | .faulted => 3

/-- The stop-reason codes of R35. -/
def StopReason.code : StopReason → BitVec 4
  | .none => 0
  | .halt => 1
  | .programCounterExhausted => 2
  | .unknownOpcode => 3
  | .stackOverflow => 4
  | .stackUnderflow => 5
  | .divideOrModuloByZero => 6
  | .invalidRegister => 7
  | .truncatedInstruction => 8
  | .budgetExhausted => 9

/-- The state elements of R20, and `running` (R34, R36). -/
inductive Element where
  | reg (i : Nat) | pc | flag | stk (j : Nat) | sp | mem (a : Nat) | codeLen | status | running | stopReason
  deriving DecidableEq, Repr

/-- The value of a state element as a number; nothing for an element that does not exist. No read changes state. -/
def readElement (s : State) : Element → Option Nat
  | .reg i => s.regs[i]?.map BitVec.toNat
  | .pc => some s.pc.toNat
  | .flag => some s.flag.toNat
  | .stk j => s.stk[j]?.map BitVec.toNat
  | .sp => some s.sp
  | .mem a => (s.memRead a).map BitVec.toNat
  | .codeLen => some s.codeLen
  | .status => some s.status.code.toNat
  | .running => some s.running.toNat
  | .stopReason => some s.stopReason.code.toNat

/-- The designated result register after the run, `x[RESULT_REG]` (R39, R286). DESIGN CHOICE (log 8): a RESULT_REG that breaks
R7 names no register, and its value is nothing. -/
def readResult (h : HostParams) (s : State) : Option Nat := readElement s (.reg h.resultReg.toNat)

/-! ## The host that drives a run (R112, R284) -/

/-- At most `n` steps until a terminal status, then `abort` where the budget ran out first (R112, R115). The count is the
host's: CORE counts nothing. -/
def runWithBudget : Nat → State → Result
  | 0, s => .next (abort s)
  | n + 1, s =>
    if s.terminal then .next s
    else
      match step s with
      | .next t => runWithBudget n t
      | .fault f => .fault f
      | .refused f => .refused f

/-- The boot order of R284: `reset`, `load_program`, optionally `load_input`, then steps within the host's budget. A program
that is too large starts no run. -/
def boot (c : Config) (h : HostParams) (program : List Byte) (input : Option (List Byte)) : Result :=
  match createInstance c h with
  | .next s0 =>
    match loadProgram program s0 with
    | .next (.ok, s1) =>
      match input with
      | none => runWithBudget h.budget s1
      | some buf =>
        match loadInput h buf s1 with
        | .next s2 => runWithBudget h.budget s2
        | .fault f => .fault f
        | .refused f => .refused f
    | .next (.programTooLarge, s1) => .next s1
    | .fault f => .fault f
    | .refused f => .refused f
  | .fault f => .fault f
  | .refused f => .refused f

end Sys2Proof.Machine
end

