-- ==== Sys2Proof/Safety.lean ====
section
/-! DEFINITION. What the claims about CORE are stated in: the invariant of its states, and the shapes "the instruction
faults and writes nothing else" and "the instruction writes one register and nothing else". -/

namespace Sys2Proof.Machine

/-- The table of spec/10_state.md R35: which stop reasons go with which status. -/
def Status.admits : Status → StopReason → Bool
  | .ready, .none | .running, .none => true
  | .halted, .halt | .halted, .programCounterExhausted => true
  | .faulted, .unknownOpcode | .faulted, .stackOverflow | .faulted, .stackUnderflow
  | .faulted, .divideOrModuloByZero | .faulted, .invalidRegister | .faulted, .truncatedInstruction
  | .faulted, .budgetExhausted => true
  | _, _ => false

/-- What holds of every state of a machine with a legal configuration, whatever program runs on it. -/
structure State.Inv (s : State) : Prop where
  /-- the parameters meet spec/00_scope.md R7 -/
  cfg_valid : s.cfg.valid = true
  /-- the register file holds REG_COUNT registers (R21) -/
  regs_length : s.regs.length = s.cfg.regCount
  /-- the stack storage holds STACK_DEPTH entries (R28) -/
  stk_length : s.stk.length = s.cfg.stackDepth
  /-- `0 <= sp <= STACK_DEPTH` (R28, R236) -/
  sp_le : s.sp ≤ s.cfg.stackDepth
  /-- `code_len` is in `0 .. CODE_CAPACITY` (R20, R32) -/
  codeLen_le : s.codeLen ≤ s.cfg.codeCapacity
  /-- memory is in canonical form -/
  mem_wf : s.mem.wf = true
  /-- memory has no address at or above MEM_SIZE (R31) -/
  mem_below : s.mem.below s.cfg.memSize = true
  /-- the stop reason goes with the status (R35) -/
  reason_ok : s.status.admits s.stopReason = true
  /-- no code without a loaded program (R32, R282) -/
  unloaded : s.programLoaded = false → s.codeLen = 0

/-- `t` is `s` after a fault of that reason (spec/40_engine.md R109): status FAULTED, the stop reason, and nothing else
changed but `pc`, of which R109 says that no claim should read it after a fault. -/
def State.FaultedFrom (s : State) (reason : StopReason) (t : State) : Prop :=
  t = { s with status := .faulted, stopReason := reason, pc := t.pc }

/-- The instruction runs to its end and writes `v` into register `rd` and nothing else: every other register reads as
before, and flag, pc, stack, sp, memory, code length, status and stop reason are as they were. -/
def WritesReg (i : Instr) (s : State) (rd : RegIdx) (v : Word) : Prop :=
  ∃ t, exec i s = .next t ∧ t = { s with regs := t.regs } ∧ t.readReg rd = v ∧ ∀ r, r ≠ rd → t.readReg r = s.readReg r

/-- The instruction faults with the reason and writes nothing else. -/
def Faults (i : Instr) (s : State) (reason : StopReason) : Prop :=
  ∃ t, exec i s = .next t ∧ s.FaultedFrom reason t

/-- With a register operand at or above REG_COUNT the instruction faults with INVALID_REGISTER (R107). -/
def FaultsIfIllFormed (i : Instr) (s : State) : Prop := i.wf s.cfg = false → Faults i s .invalidRegister

/-- The bytes stand in memory from address `a` on. -/
def State.HoldsAt (s : State) (a : Nat) (bs : List Byte) : Prop :=
  ∀ k b, bs[k]? = some b → s.memRead (a + k) = some b

end Sys2Proof.Machine
end

