-- ==== Sys2Proof/Certificates/Slice0/Obligations.lean ====
section
/-! DEFINITION. The statements for the provers, from the numbered rules of spec/. A statement about `exec` starts where an
instruction body starts: `pc` is npc (spec/40_engine.md R108); the step statements tie it to `step`.

Where a statement rests on a choice the spec marks as its own, its docstring names the choice as D<n> of
spec/92_eei_decisions.md, beside the log entry that records it. Three of them recur. D2 (log 2): the default opcode bytes of
R75. D3 (log 14): the register operand that is the destination, and the order of the sources. D6 (log 21): a register operand
at or above REG_COUNT faults with INVALID_REGISTER. -/

open Sys2Proof Sys2Proof.Machine

/-! ## Encoding -/

/-- Under every valid opcode map the decoder gives back every instruction from its encoding, whatever bytes follow, with
every operand at every value (spec/30_encoding.md R70 to R76). -/
def Obligations.DecodeOfEncodeIsTheInstruction : Prop :=
  ∀ (m : OpcodeMap) (i : Instr) (rest : List Byte), m.valid = true → decode m (encode m i ++ rest) = .ok i rest

/-- What the decoder reads as an instruction is that instruction's encoding and the bytes left over: no operand byte is
ignored and no two byte strings decode alike. It holds of every map, valid or not. -/
def Obligations.EncodeOfDecodeIsTheBytes : Prop :=
  ∀ (m : OpcodeMap) (bs : List Byte) (i : Instr) (rest : List Byte), decode m bs = .ok i rest → bs = encode m i ++ rest

/-- R70, R78: the opcode byte comes first and it alone decides the mnemonic, the format and the length, which is 1, 2, 3, 4
or 6 bytes. -/
def Obligations.OpcodeByteAloneDecidesTheLength : Prop :=
  ∀ (m : OpcodeMap) (i j : Instr), m.valid = true →
    (encode m i).length = i.length ∧ i.length ∈ [1, 2, 3, 4, 6] ∧ (encode m i).head? = some (m.byteOf i.mnemonic) ∧
    ((encode m i).head? = (encode m j).head? → i.mnemonic = j.mnemonic ∧ i.length = j.length)

/-- R77: the unrecognized opcode bytes are exactly those the map does not assign, whatever follows them; under the default
map they are 0x1A to 0xFF. Operand bytes never make an encoding illegal: they are free in both clauses. -/
def Obligations.UnassignedOpcodeBytesAreUnrecognized : Prop :=
  (∀ (m : OpcodeMap) (b : Byte) (bs : List Byte), decode m (b :: bs) = .unknownOpcode ↔ ∀ n, m.byteOf n ≠ b) ∧
  ∀ (b : Byte) (bs : List Byte), decode OpcodeMap.default (b :: bs) = .unknownOpcode ↔ 0x1A ≤ b.toNat

/-- R82: on bytes that start with an opcode byte the decoder's only failures are an unrecognized opcode and a missing
operand byte, and the second happens exactly when the bytes are fewer than the format's length. -/
def Obligations.DecoderFailsOnlyOnOpcodeOrMissingOperand : Prop :=
  ∀ (m : OpcodeMap) (n : Mnemonic) (bs : List Byte), m.valid = true →
    (decode m (m.byteOf n :: bs) = .truncated ↔ bs.length + 1 < n.format.length) ∧
    decode m (m.byteOf n :: bs) ≠ .unknownOpcode ∧ decode m (m.byteOf n :: bs) ≠ .noByte

/-- Words written out from the encodings of R71 and R75, one for each format, decode to the instructions they stand for. -/
def Obligations.WordsOfTheSpecDecode : Prop :=
  decode OpcodeMap.default [0x13] = .ok .ret [] ∧
  decode OpcodeMap.default [0x11, 0x03] = .ok (.pop 3) [] ∧
  decode OpcodeMap.default [0x0B, 0x00, 0x01] = .ok (.storeMem 0 1) [] ∧
  decode OpcodeMap.default [0x04, 0x00, 0x01, 0x02] = .ok (.sub 0 1 2) [] ∧
  decode OpcodeMap.default [0x01, 0x0F, 0x12, 0x34, 0x56, 0x78, 0x99] = .ok (.load 15 0x12345678) [0x99] ∧
  decode OpcodeMap.default [0x12, 0x01, 0x16] = .ok (.call 0x0116) []

/-! ## Configuration and reset -/

/-- R7: an instance is created exactly for the configurations that meet every constraint; any other is refused. The bounds
are the spec's choice D14 (log 1). -/
def Obligations.ConfigurationsThatBreakTheConstraintsAreRefused : Prop :=
  ∀ (c : Config) (h : HostParams),
    let ok := 1 ≤ c.memSize ∧ c.memSize ≤ 2 ^ 32 - 8 ∧ 1 ≤ c.regCount ∧ c.regCount ≤ 256 ∧ 0 ≤ c.stackDepth ∧
      c.codeCapacity ≤ c.memSize ∧ h.inputBase + h.inputCapacity ≤ c.memSize ∧ h.resultReg.toNat < c.regCount ∧
      (∀ n n', c.opcodeMap.byteOf n = c.opcodeMap.byteOf n' → n = n') ∧ ∀ n, c.opcodeMap.byteOf n ≠ 0xFF#8
    (ok → createInstance c h = .next (State.resetWith c)) ∧
    (¬ ok → createInstance c h = .refused .invalidConfiguration)

/-- R40: after reset every piece of state reads as the table says, under every legal configuration. The status and stop
reason of their own are the spec's choice D10 (log 23). -/
def Obligations.ResetLeavesEveryElementAtItsTableValue : Prop :=
  ∀ (c : Config) (h : HostParams), c.valid = true → h.valid c = true →
    ∃ s, createInstance c h = .next s ∧
      (∀ i, i < c.regCount → readElement s (.reg i) = some 0) ∧
      readElement s .pc = some 0 ∧ readElement s .flag = some 0 ∧
      (∀ j, j < c.stackDepth → readElement s (.stk j) = some 0) ∧ readElement s .sp = some 0 ∧
      (∀ a, a < c.memSize → readElement s (.mem a) = some 0) ∧
      readElement s .codeLen = some 0 ∧ s.status = .ready ∧ readElement s .running = some 0 ∧ s.stopReason = .none

/-- The invariant holds at reset, with the default parameters and with every legal configuration. -/
def Obligations.InvariantHoldsAtReset : Prop :=
  State.reset.Inv ∧ ∀ c : Config, c.valid = true → (State.resetWith c).Inv

/-! ## The step -/

/-- The headline invariant: legal parameters, register file and stack of their sizes, sp in range, code length in range,
memory canonical and inside MEM_SIZE, the stop reason matching the status. Every step keeps it, under every draw. -/
def Obligations.EveryStepKeepsTheInvariant : Prop :=
  ∀ (rand : Byte) (s t : State), s.Inv → (step s = .next t ∨ stepWith rand s = .next t) → t.Inv

/-- R113, R114: a step is total. From every state with the invariant and under every draw it answers a next state: no
fault of the model, no refusal, no waiting. `step` is one of these, for the free draw. -/
def Obligations.EveryStepAnswersANextState : Prop :=
  ∀ (rand : Byte) (s : State), s.Inv →
    (∃ t, step s = .next t) ∧ (∃ t, stepWith rand s = .next t) ∧ ∃ r, step s = stepWith r s

/-- R101: a step in HALTED or FAULTED changes nothing. -/
def Obligations.StepInATerminalStatusChangesNothing : Prop :=
  ∀ (rand : Byte) (s : State), s.status = .halted ∨ s.status = .faulted → step s = .next s ∧ stepWith rand s = .next s

/-- R102: the first step from READY sets RUNNING and carries on in the same step with the instruction at pc; a step that
ends RUNNING fetched an instruction; READY is never seen after a step. That the first step
already executes is the spec's choice D11 (log 24). -/
def Obligations.FirstStepRunsAndLeavesReady : Prop :=
  ∀ s t : State, step s = .next t →
    (s.status = .ready → step s = step { s with status := .running }) ∧ t.status ≠ .ready ∧
    (t.status = .running → ∃ i rest, s.fetched = .ok i rest)

/-- R103: at `pc >= code_len` the step halts with PROGRAM_COUNTER_EXHAUSTED and changes nothing else. That the test comes
before the fetch of every step is the spec's choice D12 (log 16). -/
def Obligations.PcAtOrPastTheCodeHaltsTheRun : Prop :=
  ∀ s : State, s.status = .ready ∨ s.status = .running → s.codeLen ≤ s.pc.toNat →
    step s = .next { s with status := .halted, stopReason := .programCounterExhausted }

/-- A step runs the decoded instruction: where the bytes at pc decode to `i`, the step is `exec i` with status RUNNING and
pc past the instruction, and pc does not wrap (R104, R106, R108; spec/10_state.md R26). Operand bytes past the code length
are read: the spec's choice D7 (log 13). -/
def Obligations.StepRunsTheDecodedInstruction : Prop :=
  ∀ (s : State) (i : Instr) (rest : List Byte), s.status = .ready ∨ s.status = .running → s.pc.toNat < s.codeLen →
    s.fetched = .ok i rest →
    step s = exec i { s with status := .running, pc := s.pc + BitVec.ofNat 32 i.length } ∧
    (s.Inv → (s.pc + BitVec.ofNat 32 i.length).toNat = s.pc.toNat + i.length)

/-- The same from memory: where the bytes of `i`'s encoding stand in memory from pc on, the step runs `i`, whatever
surrounds them and whatever alignment pc has (R56, R57, R70, R106). -/
def Obligations.StepRunsTheInstructionInMemory : Prop :=
  ∀ (s : State) (i : Instr), s.Inv → s.status = .ready ∨ s.status = .running → s.pc.toNat < s.codeLen →
    s.HoldsAt s.pc.toNat (encode s.cfg.opcodeMap i) →
    step s = exec i { s with status := .running, pc := BitVec.ofNat 32 (s.pc.toNat + i.length) }

/-- R253: the order in which a step tests what can end it; each clause holds whatever later clause would apply too. The pc
after a fault is left out: no claim should read it (R109). The order is the spec's choice D9 (log 18), the guards D6 and D7
(logs 21, 13). -/
def Obligations.StepReportsTheFirstStopInOrder : Prop :=
  ∀ s : State, s.Inv →
    (s.terminal = true → step s = .next s) ∧
    (s.terminal = false → s.codeLen ≤ s.pc.toNat →
      ∃ t, step s = .next t ∧ t.status = .halted ∧ t.stopReason = .programCounterExhausted) ∧
    (s.terminal = false → s.pc.toNat < s.codeLen → ∀ op, s.memRead s.pc.toNat = some op →
      ((∀ n, s.cfg.opcodeMap.byteOf n ≠ op) → ∃ t, step s = .next t ∧ s.FaultedFrom .unknownOpcode t) ∧
      (∀ n, s.cfg.opcodeMap.byteOf n = op → s.cfg.memSize ≤ s.pc.toNat + n.format.length - 1 →
        ∃ t, step s = .next t ∧ s.FaultedFrom .truncatedInstruction t)) ∧
    (s.terminal = false → s.pc.toNat < s.codeLen → ∀ i rest, s.fetched = .ok i rest →
      (i.wf s.cfg = false → ∃ t, step s = .next t ∧ s.FaultedFrom .invalidRegister t) ∧
      (i.wf s.cfg = true →
        (((∃ rs, i = .push rs) ∨ ∃ a, i = .call a) → s.sp = s.cfg.stackDepth →
          ∃ t, step s = .next t ∧ s.FaultedFrom .stackOverflow t) ∧
        (((∃ rd, i = .pop rd) ∨ i = .ret) → s.sp = 0 → ∃ t, step s = .next t ∧ s.FaultedFrom .stackUnderflow t) ∧
        (∀ rd rs1 rs2, i = .mod rd rs1 rs2 → s.readReg rs2 = 0#32 →
          ∃ t, step s = .next t ∧ s.FaultedFrom .divideOrModuloByZero t)))

/-- R109, R254: a faulting step writes no register, no flag, no stack entry, no sp and no memory byte: it changes status,
stop reason and pc and nothing else. -/
def Obligations.FaultingStepWritesNothingElse : Prop :=
  ∀ (rand : Byte) (s t : State), s.terminal = false → (step s = .next t ∨ stepWith rand s = .next t) →
    t.status = .faulted → s.FaultedFrom t.stopReason t

/-- The soundness of the stop reasons (spec/10_state.md R35, spec/60_exceptions.md R250): what a step records is
what happened. A step never records BUDGET_EXHAUSTED. -/
def Obligations.StopReasonTellsWhatHappened : Prop :=
  ∀ s t : State, s.Inv → s.terminal = false → step s = .next t →
    match t.stopReason with
    | .none => t.status = .running
    | .halt => t.status = .halted ∧ ∃ rest, s.fetched = .ok .halt rest
    | .programCounterExhausted => t.status = .halted ∧ s.codeLen ≤ s.pc.toNat
    | .unknownOpcode =>
      t.status = .faulted ∧ ∃ op, s.memRead s.pc.toNat = some op ∧ ∀ n, s.cfg.opcodeMap.byteOf n ≠ op
    | .truncatedInstruction =>
      t.status = .faulted ∧ ∃ n, s.memRead s.pc.toNat = some (s.cfg.opcodeMap.byteOf n) ∧
        s.cfg.memSize ≤ s.pc.toNat + n.format.length - 1
    | .invalidRegister =>
      t.status = .faulted ∧ ∃ i rest, s.fetched = .ok i rest ∧ ∃ r ∈ i.regs, s.cfg.regCount ≤ r.toNat
    | .stackOverflow =>
      t.status = .faulted ∧ s.sp = s.cfg.stackDepth ∧
        ∃ rest, (∃ rs, s.fetched = .ok (.push rs) rest) ∨ ∃ a, s.fetched = .ok (.call a) rest
    | .stackUnderflow =>
      t.status = .faulted ∧ s.sp = 0 ∧ ∃ rest, (∃ rd, s.fetched = .ok (.pop rd) rest) ∨ s.fetched = .ok .ret rest
    | .divideOrModuloByZero =>
      t.status = .faulted ∧ ∃ rd rs1 rs2 rest, s.fetched = .ok (.mod rd rs1 rs2) rest ∧ s.readReg rs2 = 0#32
    | .budgetExhausted => False

/-- R32, R65: no step changes the code length, nor the parameters nor the load record. That a STORE_MEM leaves the code
length alone is the spec's choice D20 (log 22); the parameters and the load record are the model's own fields (logs 3, 6). -/
def Obligations.NoStepChangesTheCodeLength : Prop :=
  ∀ (rand : Byte) (s t : State), (step s = .next t ∨ stepWith rand s = .next t) →
    t.codeLen = s.codeLen ∧ t.cfg = s.cfg ∧ t.programLoaded = s.programLoaded

/-- R114, R132: the draw is read only by RANDOM. Two steps from one state under different draws answer alike unless the
instruction fetched is a RANDOM. -/
def Obligations.OnlyRandomReadsTheDraw : Prop :=
  ∀ (r r' : Byte) (s : State), (∀ rd rest, s.fetched ≠ .ok (.random rd) rest) → stepWith r s = stepWith r' s

/-! ## Whole-machine rules over every instruction -/

/-- R27: the flag is false at reset; only CMP writes it, with the equality of its two registers; only JZ and JNZ read it
(run from a state with the other flag, any other instruction answers the same but for the flag it leaves alone); the host
may read it. -/
def Obligations.OnlyCmpWritesAndOnlyJzJnzReadTheFlag : Prop :=
  State.reset.flag = false ∧
  (∀ i s t, exec i s = .next t → (∀ a b, i ≠ .cmp a b) → t.flag = s.flag) ∧
  (∀ a b s, (Instr.cmp a b).wf s.cfg = true →
    ∃ t, exec (.cmp a b) s = .next t ∧ (t.flag = true ↔ s.readReg a = s.readReg b)) ∧
  (∀ i s t b, (∀ a, i ≠ .jz a) → (∀ a, i ≠ .jnz a) → exec i s = .next t →
    ∃ t', exec i { s with flag := b } = .next t' ∧ t = { t' with flag := t.flag }) ∧
  ∀ s, readElement s .flag = some (if s.flag = true then 1 else 0)

/-- R236: only PUSH, POP, CALL and RET touch the stack, and they touch no memory; the depth goes up by one with a push, down
by one with a pop and stays on a fault; `0 <= sp <= STACK_DEPTH` is kept. -/
def Obligations.OnlyStackInstructionsTouchTheStack : Prop :=
  ∀ i s t, exec i s = .next t →
    let pushes := (∃ rs, i = .push rs) ∨ ∃ a, i = .call a
    let pops := (∃ rd, i = .pop rd) ∨ i = .ret
    (¬ pushes → ¬ pops → t.stk = s.stk ∧ t.sp = s.sp) ∧
    (pushes ∨ pops → ∀ a, t.memRead a = s.memRead a) ∧
    (s.status = .running → pushes → t.sp = s.sp + if t.status = .faulted then 0 else 1) ∧
    (s.status = .running → pops → t.sp + (if t.status = .faulted then 0 else 1) = s.sp) ∧
    (s.sp ≤ s.cfg.stackDepth → t.sp ≤ t.cfg.stackDepth)

/-- The memory frame of every instruction (spec/20_memory.md R51): a STORE_MEM leaves every byte but the one at its data
address as it was, and every other instruction leaves every byte as it was. -/
def Obligations.OnlyStoreMemWritesMemory : Prop :=
  ∀ i s t, s.mem.wf = true → exec i s = .next t →
    ∀ a, (∀ rs ra, i = .storeMem rs ra → a ≠ s.dataAddr ra) → t.memRead a = s.memRead a

/-- R22: an instruction writes at most the register its row names as written. -/
def Obligations.OnlyTheNamedRegisterIsWritten : Prop :=
  ∀ i s t, exec i s = .next t → ∀ r, i.destReg ≠ some r → t.readReg r = s.readReg r

/-- The frame of the control fields (spec/10_state.md R25, R33, R36): only JMP, JZ, JNZ, CALL and RET write pc, where the
instruction does not end FAULTED (no claim should read pc after a fault, R109); a body leaves status and stop reason alone
unless it is HALT or faults; the draw count, the model's own field (log 5), moves only with RANDOM. -/
def Obligations.OnlyControlTransfersWriteThePc : Prop :=
  ∀ i s t, exec i s = .next t →
    (t.status ≠ .faulted → (∀ a, i ≠ .jmp a ∧ i ≠ .jz a ∧ i ≠ .jnz a ∧ i ≠ .call a) → i ≠ .ret → t.pc = s.pc) ∧
    (t.status = s.status ∧ t.stopReason = s.stopReason ∨ t.status = .halted ∧ i = .halt ∨ t.status = .faulted) ∧
    ((∀ rd, i ≠ .random rd) → t.draws = s.draws)

/-! ## Register moves, arithmetic and logic -/

/-- R130, R131: LOAD and MOVE. The destination is the first operand by D3, the opcode bytes are D2's (logs 14, 2). -/
def Obligations.LoadAndMoveWriteTheirRegister : Prop :=
  ∀ (s : State) (rd rs : RegIdx) (imm : Word) (i3 i2 i1 i0 : Byte), s.Inv →
    encode OpcodeMap.default (.load rd (be32 i3 i2 i1 i0)) = [0x01, rd, i3, i2, i1, i0] ∧
    (be32 i3 i2 i1 i0).toNat = i3.toNat * 2 ^ 24 + i2.toNat * 2 ^ 16 + i1.toNat * 2 ^ 8 + i0.toNat ∧
    encode OpcodeMap.default (.move rd rs) = [0x02, rd, rs] ∧
    ((Instr.load rd imm).wf s.cfg = true → WritesReg (.load rd imm) s rd imm) ∧
    ((Instr.move rd rs).wf s.cfg = true → WritesReg (.move rd rs) s rd (s.readReg rs)) ∧
    FaultsIfIllFormed (.load rd imm) s ∧ FaultsIfIllFormed (.move rd rs) s

/-- R132: RANDOM writes the step's byte, zero-extended, for every byte the draw can be; it consumes one draw and writes
nothing else. `exec` takes the free draw; the statement holds whatever the draw count is (log 5). The free draw is the
spec's choice D22, the opcode byte D2's (log 2). -/
def Obligations.RandomWritesTheDrawnByte : Prop :=
  ∀ (s : State) (rd : RegIdx), s.Inv →
    encode OpcodeMap.default (.random rd) = [0x14, rd] ∧
    ((Instr.random rd).wf s.cfg = true →
      (∀ b : Byte, ∃ t, execWith b (.random rd) s = .next t ∧ (t.readReg rd).toNat = b.toNat ∧
        (∀ r, r ≠ rd → t.readReg r = s.readReg r) ∧ t = { s with regs := t.regs, draws := s.draws + 1 }) ∧
      ∃ (b : Byte) (t : State), exec (.random rd) s = .next t ∧ execWith b (.random rd) s = .next t) ∧
    FaultsIfIllFormed (.random rd) s

/-- R150: wrapping 32-bit addition, the registers read as naturals; nothing but `rd` is written, and INVALID_REGISTER is the
only fault. The byte 03 is the default of D2 (log 2), the fault the spec's choice D6 (log 21). -/
def Obligations.AddWrapsModulo2To32 : Prop :=
  ∀ (s : State) (rd rs1 rs2 : RegIdx), s.Inv →
    encode OpcodeMap.default (.add rd rs1 rs2) = [0x03, rd, rs1, rs2] ∧
    ((Instr.add rd rs1 rs2).wf s.cfg = true →
      WritesReg (.add rd rs1 rs2) s rd (BitVec.ofNat 32 (((s.readReg rs1).toNat + (s.readReg rs2).toNat) % 2 ^ 32))) ∧
    FaultsIfIllFormed (.add rd rs1 rs2) s

/-- R151, R152: wrapping subtraction and multiplication of the registers read as naturals. The destination first and the
minuend before the subtrahend are D3's, the opcode bytes D2's (logs 14, 2). -/
def Obligations.SubAndMulWrapModulo2To32 : Prop :=
  ∀ (s : State) (rd rs1 rs2 : RegIdx), s.Inv →
    let x := (s.readReg rs1).toNat
    let y := (s.readReg rs2).toNat
    encode OpcodeMap.default (.sub rd rs1 rs2) = [0x04, rd, rs1, rs2] ∧
    encode OpcodeMap.default (.mul rd rs1 rs2) = [0x05, rd, rs1, rs2] ∧
    ((Instr.sub rd rs1 rs2).wf s.cfg = true →
      WritesReg (.sub rd rs1 rs2) s rd (BitVec.ofInt 32 (((x : Int) - (y : Int)) % 2 ^ 32)) ∧
      WritesReg (.mul rd rs1 rs2) s rd (BitVec.ofNat 32 (x * y % 2 ^ 32))) ∧
    FaultsIfIllFormed (.sub rd rs1 rs2) s ∧ FaultsIfIllFormed (.mul rd rs1 rs2) s

/-- R153 to R156: bitwise logic on the registers read as naturals; NOT is `0xFFFFFFFF - x`. The destination
first is D3's, the opcode bytes D2's (logs 14, 2). -/
def Obligations.XorAndOrNotAreBitwise : Prop :=
  ∀ (s : State) (rd rs1 rs2 : RegIdx), s.Inv →
    let x := (s.readReg rs1).toNat
    let y := (s.readReg rs2).toNat
    encode OpcodeMap.default (.xor rd rs1 rs2) = [0x06, rd, rs1, rs2] ∧
    encode OpcodeMap.default (.and rd rs1 rs2) = [0x07, rd, rs1, rs2] ∧
    encode OpcodeMap.default (.or rd rs1 rs2) = [0x08, rd, rs1, rs2] ∧
    encode OpcodeMap.default (.not rd rs1) = [0x09, rd, rs1] ∧
    ((Instr.xor rd rs1 rs2).wf s.cfg = true →
      WritesReg (.xor rd rs1 rs2) s rd (BitVec.ofNat 32 (x ^^^ y)) ∧
      WritesReg (.and rd rs1 rs2) s rd (BitVec.ofNat 32 (x &&& y)) ∧
      WritesReg (.or rd rs1 rs2) s rd (BitVec.ofNat 32 (x ||| y))) ∧
    ((Instr.not rd rs1).wf s.cfg = true → WritesReg (.not rd rs1) s rd (BitVec.ofNat 32 (0xFFFFFFFF - x))) ∧
    FaultsIfIllFormed (.xor rd rs1 rs2) s ∧ FaultsIfIllFormed (.and rd rs1 rs2) s ∧
    FaultsIfIllFormed (.or rd rs1 rs2) s ∧ FaultsIfIllFormed (.not rd rs1) s

/-- R157, R158: logical shifts by the low five bits of the amount register, zeros coming in. The operand that
holds the amount is D3's, the opcode bytes D2's (logs 14, 2); the zero fill is the spec's G2 (log 17). -/
def Obligations.ShiftsFillWithZeros : Prop :=
  ∀ (s : State) (rd rs1 rs2 : RegIdx), s.Inv →
    let v := (s.readReg rs1).toNat
    let k := (s.readReg rs2).toNat % 32
    encode OpcodeMap.default (.shiftL rd rs1 rs2) = [0x15, rd, rs1, rs2] ∧
    encode OpcodeMap.default (.shiftR rd rs1 rs2) = [0x16, rd, rs1, rs2] ∧
    ((Instr.shiftL rd rs1 rs2).wf s.cfg = true →
      WritesReg (.shiftL rd rs1 rs2) s rd (BitVec.ofNat 32 (v * 2 ^ k % 2 ^ 32)) ∧
      WritesReg (.shiftR rd rs1 rs2) s rd (BitVec.ofNat 32 (v / 2 ^ k))) ∧
    FaultsIfIllFormed (.shiftL rd rs1 rs2) s ∧ FaultsIfIllFormed (.shiftR rd rs1 rs2) s

/-- R159, R160: the rotates, bit by bit: bit `j` of the value goes to bit `(j + k) mod 32` under ROT_L, and under ROT_R bit
`(j + k) mod 32` comes down to bit `j`. `k` is the low five bits of the amount register. The operand
order is D3's, the opcode bytes D2's (logs 14, 2); the rotate's formula is the spec's G1 (log 17). -/
def Obligations.RotatesMoveEveryBitAround : Prop :=
  ∀ (s : State) (rd rs1 rs2 : RegIdx), s.Inv →
    let v := s.readReg rs1
    let k := (s.readReg rs2).toNat % 32
    encode OpcodeMap.default (.rotL rd rs1 rs2) = [0x17, rd, rs1, rs2] ∧
    encode OpcodeMap.default (.rotR rd rs1 rs2) = [0x18, rd, rs1, rs2] ∧
    ((Instr.rotL rd rs1 rs2).wf s.cfg = true →
      (∃ w, WritesReg (.rotL rd rs1 rs2) s rd w ∧ ∀ j, j < 32 → w.getLsbD ((j + k) % 32) = v.getLsbD j) ∧
      ∃ w, WritesReg (.rotR rd rs1 rs2) s rd w ∧ ∀ j, j < 32 → w.getLsbD j = v.getLsbD ((j + k) % 32)) ∧
    FaultsIfIllFormed (.rotL rd rs1 rs2) s ∧ FaultsIfIllFormed (.rotR rd rs1 rs2) s

/-- R171: for every value and every amount register value, ROT_L then ROT_R by the same amount gives the value back, in the
instructions themselves. The second amount is any register whose low five bits, after the ROT_L, are those the first amount
had; every choice of registers is allowed, equal ones too. -/
def Obligations.RotLThenRotRIsTheIdentity : Prop :=
  ∀ (s : State) (rd rs1 rs2 rd' rs2' : RegIdx), s.Inv → (Instr.rotL rd rs1 rs2).wf s.cfg = true →
    (Instr.rotR rd' rd rs2').wf s.cfg = true →
    ∃ t, exec (.rotL rd rs1 rs2) s = .next t ∧
      ((t.readReg rs2').toNat % 32 = (s.readReg rs2).toNat % 32 →
        ∃ u, exec (.rotR rd' rd rs2') t = .next u ∧ u.readReg rd' = s.readReg rs1)

/-- R161: the unsigned remainder, in `0 .. x[rs2]-1`; a zero divisor faults and leaves everything but status, stop reason
and pc as it was. The dividend first is D3's, the opcode byte D2's (logs 14, 2). -/
def Obligations.ModIsTheUnsignedRemainder : Prop :=
  ∀ (s : State) (rd rs1 rs2 : RegIdx), s.Inv →
    encode OpcodeMap.default (.mod rd rs1 rs2) = [0x19, rd, rs1, rs2] ∧
    ((Instr.mod rd rs1 rs2).wf s.cfg = true →
      (s.readReg rs2 ≠ 0#32 →
        ∃ w : Word, WritesReg (.mod rd rs1 rs2) s rd w ∧
          w.toNat = (s.readReg rs1).toNat % (s.readReg rs2).toNat ∧ w.toNat < (s.readReg rs2).toNat) ∧
      (s.readReg rs2 = 0#32 → Faults (.mod rd rs1 rs2) s .divideOrModuloByZero)) ∧
    FaultsIfIllFormed (.mod rd rs1 rs2) s

/-! ## Memory access -/

/-- R190: LOAD_MEM reads the byte at `x[ra] mod MEM_SIZE`, zero-extended; no address faults. The operand order
is D3's, the opcode byte D2's (logs 14, 2). -/
def Obligations.LoadMemReadsOneByteZeroExtended : Prop :=
  ∀ (s : State) (rd ra : RegIdx), s.Inv →
    encode OpcodeMap.default (.loadMem rd ra) = [0x0A, rd, ra] ∧
    ((Instr.loadMem rd ra).wf s.cfg = true →
      ∃ (b : Byte) (w : Word), s.memRead ((s.readReg ra).toNat % s.cfg.memSize) = some b ∧ w.toNat = b.toNat ∧
        WritesReg (.loadMem rd ra) s rd w) ∧
    FaultsIfIllFormed (.loadMem rd ra) s

/-- R191: STORE_MEM writes the low byte of `x[rs]` at `x[ra] mod MEM_SIZE`, whatever stands there; every other byte, and
everything that is not memory, is as it was; no address faults. The value first is D3's, the opcode byte D2's (logs 14,
2). -/
def Obligations.StoreMemWritesOneByte : Prop :=
  ∀ (s : State) (rs ra : RegIdx), s.Inv →
    encode OpcodeMap.default (.storeMem rs ra) = [0x0B, rs, ra] ∧
    ((Instr.storeMem rs ra).wf s.cfg = true →
      ∃ t, exec (.storeMem rs ra) s = .next t ∧ t = { s with mem := t.mem } ∧ s.dataAddr ra < s.cfg.memSize ∧
        s.dataAddr ra = (s.readReg ra).toNat % s.cfg.memSize ∧
        t.memRead (s.dataAddr ra) = some (BitVec.ofNat 8 ((s.readReg rs).toNat % 2 ^ 8)) ∧
        ∀ a, a ≠ s.dataAddr ra → t.memRead a = s.memRead a) ∧
    FaultsIfIllFormed (.storeMem rs ra) s

/-- R54, R55, R61: a byte stored is loaded back, masked and zero-extended, also through another address register whose value
is equal modulo MEM_SIZE. -/
def Obligations.StoreThenLoadReturnsTheLowByte : Prop :=
  ∀ (s : State) (rs ra rd ra' : RegIdx), s.Inv → (Instr.storeMem rs ra).wf s.cfg = true →
    (Instr.loadMem rd ra').wf s.cfg = true →
    (s.readReg ra').toNat % s.cfg.memSize = (s.readReg ra).toNat % s.cfg.memSize →
    ∃ t u, exec (.storeMem rs ra) s = .next t ∧ exec (.loadMem rd ra') t = .next u ∧
      (u.readReg rd).toNat = (s.readReg rs).toNat % 2 ^ 8

/-- R64, R289: a STORE_MEM is seen by the very next fetch. A store over the opcode byte at pc, of a one-byte instruction's
opcode, makes the next step run that instruction: HALT or RET, whatever stood there. The spec's choice D20 (log 22). -/
def Obligations.StoreIsSeenByTheNextFetch : Prop :=
  ∀ (s t : State) (rs ra : RegIdx) (i : Instr), s.Inv → s.status = .running → s.pc.toNat < s.codeLen →
    i = .halt ∨ i = .ret → s.dataAddr ra = s.pc.toNat →
    truncByte (s.readReg rs) = s.cfg.opcodeMap.byteOf i.mnemonic → (Instr.storeMem rs ra).wf s.cfg = true →
    exec (.storeMem rs ra) s = .next t → step t = exec i { t with pc := t.pc + 1#32 }

/-! ## Control flow -/

/-- R200: HALT ends the run with stop reason HALT; nothing else changes, and every later step is a no-op. The recorded stop
reason is the spec's choice D10 (log 23), the opcode byte D2's (log 2). -/
def Obligations.HaltEndsTheRun : Prop :=
  ∀ s : State, encode OpcodeMap.default .halt = [0x00] ∧
    exec .halt s = .next { s with status := .halted, stopReason := .halt } ∧
    ∀ t, exec .halt s = .next t → t.running = false ∧ step t = .next t

/-- R201, R202, R203: JMP always, JZ on a true flag, JNZ on a false flag set pc to the zero-extended address; otherwise pc
stays at npc; nothing else changes. They complete for every target; at a target at or past the code length the next step ends
the run: the spec's choice D12 (log 16). The bytes 0C, 0D, 0E are the default of D2 (log 2). -/
def Obligations.JumpsSetThePcToTheAddress : Prop :=
  ∀ (s : State) (a : Addr) (ah al : Byte),
    encode OpcodeMap.default (.jmp (be16 ah al)) = [0x0C, ah, al] ∧
    encode OpcodeMap.default (.jz (be16 ah al)) = [0x0D, ah, al] ∧
    encode OpcodeMap.default (.jnz (be16 ah al)) = [0x0E, ah, al] ∧
    (be16 ah al).toNat = ah.toNat * 2 ^ 8 + al.toNat ∧
    exec (.jmp a) s = .next { s with pc := BitVec.ofNat 32 a.toNat } ∧
    exec (.jz a) s = .next { s with pc := if s.flag = true then BitVec.ofNat 32 a.toNat else s.pc } ∧
    exec (.jnz a) s = .next { s with pc := if s.flag = false then BitVec.ofNat 32 a.toNat else s.pc } ∧
    (s.status = .running → s.codeLen ≤ a.toNat →
      step { s with pc := BitVec.ofNat 32 a.toNat } =
        .next { s with pc := BitVec.ofNat 32 a.toNat, status := .halted, stopReason := .programCounterExhausted })

/-- R204: CMP sets the flag to the equality of the two registers and writes nothing else; INVALID_REGISTER is its only fault;
no other instruction writes the flag. The byte 0F is the default of D2 (log 2), the fault the spec's choice D6 (log 21). -/
def Obligations.CmpSetsTheFlagToEquality : Prop :=
  ∀ (s : State) (rs1 rs2 : RegIdx),
    encode OpcodeMap.default (.cmp rs1 rs2) = [0x0F, rs1, rs2] ∧
    ((Instr.cmp rs1 rs2).wf s.cfg = true →
      exec (.cmp rs1 rs2) s = .next { s with flag := decide (s.readReg rs1 = s.readReg rs2) }) ∧
    FaultsIfIllFormed (.cmp rs1 rs2) s ∧
    ∀ i t, exec i s = .next t → (∀ r1 r2, i ≠ .cmp r1 r2) → t.flag = s.flag

/-- R288: a CMP followed at once by a JZ or a JNZ sees the new flag: JZ is taken exactly on equal registers and JNZ exactly on
different ones. -/
def Obligations.BranchAfterCmpSeesTheNewFlag : Prop :=
  ∀ (s : State) (rs1 rs2 : RegIdx) (a : Addr), (Instr.cmp rs1 rs2).wf s.cfg = true →
    ∃ t u w, exec (.cmp rs1 rs2) s = .next t ∧ exec (.jz a) t = .next u ∧ exec (.jnz a) t = .next w ∧
      (s.readReg rs1 = s.readReg rs2 → u.pc.toNat = a.toNat ∧ w.pc = s.pc) ∧
      (s.readReg rs1 ≠ s.readReg rs2 → u.pc = s.pc ∧ w.pc.toNat = a.toNat)

/-! ## The stack -/

/-- R230, R232: PUSH writes the whole register value on top and counts it, or faults when the stack is full; entries below,
registers, flag, pc and memory are as they were. The 32-bit entries are D4's (log 15), the opcode byte D2's (log 2). -/
def Obligations.PushPutsTheRegisterOnTop : Prop :=
  ∀ (s : State) (rs : RegIdx), s.Inv →
    encode OpcodeMap.default (.push rs) = [0x10, rs] ∧
    ((Instr.push rs).wf s.cfg = true →
      (s.sp < s.cfg.stackDepth →
        ∃ t, exec (.push rs) s = .next t ∧ t = { s with stk := t.stk, sp := s.sp + 1 } ∧
          t.stk[s.sp]? = some (s.readReg rs) ∧ ∀ j, j ≠ s.sp → t.stk[j]? = s.stk[j]?) ∧
      (s.sp = s.cfg.stackDepth → Faults (.push rs) s .stackOverflow)) ∧
    FaultsIfIllFormed (.push rs) s

/-- R231, R233: POP moves the top entry into the register and leaves the entry in place, or faults when the stack is
empty. The entry that stays is D25's (log 16), the opcode byte D2's (log 2). -/
def Obligations.PopTakesTheTopIntoTheRegister : Prop :=
  ∀ (s : State) (rd : RegIdx), s.Inv →
    encode OpcodeMap.default (.pop rd) = [0x11, rd] ∧
    ((Instr.pop rd).wf s.cfg = true →
      (0 < s.sp →
        ∃ t, exec (.pop rd) s = .next t ∧ t = { s with regs := t.regs, sp := s.sp - 1 } ∧
          some (t.readReg rd) = s.stk[s.sp - 1]? ∧ ∀ r, r ≠ rd → t.readReg r = s.readReg r) ∧
      (s.sp = 0 → Faults (.pop rd) s .stackUnderflow)) ∧
    FaultsIfIllFormed (.pop rd) s

/-- R234: CALL pushes npc and jumps, or faults when the stack is full, and then neither pushes nor jumps. The
32-bit entries are D4's (log 15), the opcode byte D2's (log 2). -/
def Obligations.CallPushesTheReturnAddressAndJumps : Prop :=
  ∀ (s : State) (a : Addr) (ah al : Byte), s.Inv →
    encode OpcodeMap.default (.call (be16 ah al)) = [0x12, ah, al] ∧
    (s.sp < s.cfg.stackDepth →
      ∃ t, exec (.call a) s = .next t ∧ t = { s with stk := t.stk, sp := s.sp + 1, pc := BitVec.ofNat 32 a.toNat } ∧
        t.stk[s.sp]? = some s.pc ∧ ∀ j, j ≠ s.sp → t.stk[j]? = s.stk[j]?) ∧
    (s.sp = s.cfg.stackDepth → Faults (.call a) s .stackOverflow)

/-- R235: RET pops the top entry into pc, all 32 bits, whatever pushed it, or faults when the stack is empty. The
32 bits are the spec's choice D5 (log 15), the opcode byte D2's (log 2). -/
def Obligations.RetPopsTheTopIntoThePc : Prop :=
  ∀ s : State, s.Inv →
    encode OpcodeMap.default .ret = [0x13] ∧
    (0 < s.sp →
      ∃ t, exec .ret s = .next t ∧ t = { s with pc := t.pc, sp := s.sp - 1 } ∧ some t.pc = s.stk[s.sp - 1]?) ∧
    (s.sp = 0 → Faults .ret s .stackUnderflow)

/-- R232 (and the source's own example): a PUSH followed by a POP returns the value, and restores the depth, at every depth
below the capacity. -/
def Obligations.PushThenPopReturnsTheValue : Prop :=
  ∀ (s : State) (rs rd : RegIdx), s.Inv → (Instr.move rd rs).wf s.cfg = true → s.sp < s.cfg.stackDepth →
    ∃ t u, exec (.push rs) s = .next t ∧ exec (.pop rd) t = .next u ∧ u.readReg rd = s.readReg rs ∧ u.sp = s.sp ∧
      (∀ r, r ≠ rd → u.readReg r = s.readReg r) ∧ ∀ j, j < s.sp → u.stk[j]? = s.stk[j]?

/-- R234: a CALL in memory at `a0`, whatever its target, followed by a RET in memory at the target, comes back to `a0 + 3`,
never to the target as such, with the depth as before. Two steps. -/
def Obligations.CallThenRetComesBackAfterTheCall : Prop :=
  ∀ (s : State) (a : Addr), s.Inv → s.status = .ready ∨ s.status = .running → s.pc.toNat < s.codeLen →
    s.HoldsAt s.pc.toNat (encode s.cfg.opcodeMap (.call a)) → a.toNat < s.codeLen →
    s.HoldsAt a.toNat (encode s.cfg.opcodeMap .ret) → s.sp < s.cfg.stackDepth →
    ∃ t u, step s = .next t ∧ t.pc.toNat = a.toNat ∧ step t = .next u ∧ u.pc.toNat = s.pc.toNat + 3 ∧ u.sp = s.sp ∧
      u.status = .running

/-! ## The host's transactions -/

/-- R112: `abort` in READY or RUNNING faults with BUDGET_EXHAUSTED and changes nothing else; once terminal it does
nothing. The transaction and its stop reason are the spec's choice D13 (log 19). -/
def Obligations.AbortFaultsARunThatHasNotEnded : Prop :=
  ∀ s : State,
    (s.status = .ready ∨ s.status = .running →
      abort s = { s with status := .faulted, stopReason := .budgetExhausted }) ∧
    (s.status = .halted ∨ s.status = .faulted → abort s = s)

/-- R282: `load_program` copies the bytes from address 0 on, sets the code length and answers OK, or answers ProgramTooLarge
and changes nothing; a program of exactly CODE_CAPACITY bytes, and an empty one, are accepted. It is legal in READY until
one call has returned OK (the spec's choices D15, D16, D19, log 26; the load record is the model's, log 6). -/
def Obligations.LoadProgramCopiesOrLeavesUntouched : Prop :=
  ∀ (s : State) (buf : List Byte), s.Inv →
    (s.status = .ready → s.programLoaded = false → buf.length ≤ s.cfg.codeCapacity →
      ∃ t, loadProgram buf s = .next (.ok, t) ∧
        t = { s with mem := t.mem, codeLen := buf.length, programLoaded := true } ∧
        ∀ a, a < s.cfg.memSize → t.memRead a = if a < buf.length then buf[a]? else s.memRead a) ∧
    (s.status = .ready → s.programLoaded = false → s.cfg.codeCapacity < buf.length →
      loadProgram buf s = .next (.programTooLarge, s)) ∧
    (s.status ≠ .ready ∨ s.programLoaded = true → loadProgram buf s = .refused .loadProgramNotLegal)

/-- R283: `load_input` copies the bytes from INPUT_BASE on and changes nothing else; a longer input, and a call before
`load_program` has succeeded or after the first step, have no transition (the spec's choices D17, D19, log 26; that the load
must have succeeded is DEDUCED, log 9). R7: parameters of the host that break the constraints are refused; that `load_input`
is a place that refuses them is the model's choice (log 8). -/
def Obligations.LoadInputCopiesIntoTheInputRegion : Prop :=
  ∀ (s : State) (h : HostParams) (buf : List Byte), s.Inv →
    (h.valid s.cfg = true →
      (s.status = .ready → s.programLoaded = true → buf.length ≤ h.inputCapacity →
        ∃ t, loadInput h buf s = .next t ∧ t = { s with mem := t.mem } ∧
          ∀ a, a < s.cfg.memSize →
            t.memRead a =
              if h.inputBase ≤ a ∧ a < h.inputBase + buf.length then buf[a - h.inputBase]? else s.memRead a) ∧
      (s.status = .ready → s.programLoaded = true → h.inputCapacity < buf.length →
        loadInput h buf s = .refused .inputTooLong) ∧
      (s.status ≠ .ready ∨ s.programLoaded = false → loadInput h buf s = .refused .loadInputNotLegal)) ∧
    (h.valid s.cfg = false → loadInput h buf s = .refused .invalidConfiguration)

/-- R67: at the first step memory holds zeros, overwritten by the program bytes and then by the input bytes; on overlap the
input wins (the spec's choice D17, log 26). -/
def Obligations.MemoryAtTheFirstStep : Prop :=
  ∀ (c : Config) (h : HostParams) (program input : List Byte), c.valid = true → h.valid c = true →
    program.length ≤ c.codeCapacity → input.length ≤ h.inputCapacity →
    ∃ s0 s1 s2, createInstance c h = .next s0 ∧ loadProgram program s0 = .next (.ok, s1) ∧
      loadInput h input s1 = .next s2 ∧ s2.pc = 0#32 ∧ s2.status = .ready ∧ s2.codeLen = program.length ∧
      ∀ a, a < c.memSize →
        s2.memRead a =
          if h.inputBase ≤ a ∧ a < h.inputBase + input.length then input[a - h.inputBase]?
          else if a < program.length then program[a]?
          else some 0#8

/-- The host's transactions keep the invariant too, so it holds all along a run from reset. -/
def Obligations.HostTransactionsKeepTheInvariant : Prop :=
  ∀ s : State, s.Inv →
    (∀ buf a t, loadProgram buf s = .next (a, t) → t.Inv) ∧
    (∀ h buf t, loadInput h buf s = .next t → t.Inv) ∧ (abort s).Inv

/-- Termination (spec/40_engine.md R112, R115): with any budget, from every state with the invariant, the host's run ends,
HALTED or FAULTED, with the invariant and the code length kept; with a budget of 0 a run that has not ended records
BUDGET_EXHAUSTED. That the host counts and aborts is the spec's choice D13, the shape of `runWithBudget` (at most n steps, then
one abort) the model's (log 19). -/
def Obligations.BudgetedRunEndsInATerminalStatus : Prop :=
  ∀ (n : Nat) (s : State), s.Inv →
    ∃ t, runWithBudget n s = .next t ∧ t.Inv ∧ t.terminal = true ∧ t.codeLen = s.codeLen ∧
      (n = 0 → s.terminal = false → t.stopReason = .budgetExhausted)

/-- The boot order of spec/70_reset_and_hazards.md R284, from instance creation to the terminal status: with a legal
configuration, a program and an input that fit, it answers a terminal state whatever the program does. The boot order is the
spec's choice D19 (log 26), the budget D13 (log 19). -/
def Obligations.BootedRunEndsInATerminalStatus : Prop :=
  ∀ (c : Config) (h : HostParams) (program : List Byte) (input : Option (List Byte)), c.valid = true → h.valid c = true →
    program.length ≤ c.codeCapacity → (∀ buf, input = some buf → buf.length ≤ h.inputCapacity) →
    ∃ t, boot c h program input = .next t ∧ t.terminal = true ∧ t.codeLen = program.length ∧ t.Inv

/-! ## What reaches memory, and the stack beside it -/

/-- R30: the stack and memory are apart. Stack and stack pointer neither change under LOAD_MEM and STORE_MEM nor influence
them, and memory neither changes under PUSH, POP, CALL and RET nor influences them: run with any other stack, or any other
memory, the instruction does the same to all the rest. Their faults are no exception. -/
def Obligations.StackAndMemoryAreApart : Prop :=
  (∀ i s t k n, (∃ rd ra, i = .loadMem rd ra) ∨ (∃ rs ra, i = .storeMem rs ra) → exec i s = .next t →
    t.stk = s.stk ∧ t.sp = s.sp ∧ exec i { s with stk := k, sp := n } = .next { t with stk := k, sp := n }) ∧
  ∀ i s t m, (∃ rs, i = .push rs) ∨ (∃ rd, i = .pop rd) ∨ (∃ a, i = .call a) ∨ i = .ret → exec i s = .next t →
    t.mem = s.mem ∧ exec i { s with mem := m } = .next { t with mem := m }

/-- R51: instruction fetch, LOAD_MEM and STORE_MEM are all that reaches memory. Any other instruction leaves memory as it is
and, run with any other memory, does the same to all the rest. LOAD_MEM reads the one byte at its data address, and leaves
memory as it is; STORE_MEM changes the one byte at its data address. A fetch reads the bytes at pc and the operand bytes after
it: memory that agrees on the bytes of the instruction fetched gives that instruction, and memory that agrees on the opcode
byte of a fetch that fails fails the same way. -/
def Obligations.OnlyFetchAndMemoryInstructionsReachMemory : Prop :=
  ∀ (s : State) (m : Memory),
    let s' : State := { s with mem := m }
    (∀ i t, (∀ rd ra, i ≠ .loadMem rd ra) → (∀ rs ra, i ≠ .storeMem rs ra) → exec i s = .next t →
      t.mem = s.mem ∧ exec i s' = .next { t with mem := m }) ∧
    (∀ rd ra t, s'.memRead (s.dataAddr ra) = s.memRead (s.dataAddr ra) → exec (.loadMem rd ra) s = .next t →
      t.mem = s.mem ∧ exec (.loadMem rd ra) s' = .next { t with mem := m }) ∧
    (∀ rs ra t, s.mem.wf = true → exec (.storeMem rs ra) s = .next t →
      ∀ a, a ≠ s.dataAddr ra → t.memRead a = s.memRead a) ∧
    (s.Inv → s.pc.toNat < s.codeLen →
      (∀ i rest, s.fetched = .ok i rest →
        (∀ k, k < i.length → s'.memRead (s.pc.toNat + k) = s.memRead (s.pc.toNat + k)) →
        ∃ rest', s'.fetched = .ok i rest') ∧
      (s'.memRead s.pc.toNat = s.memRead s.pc.toNat →
        (s.fetched = .unknownOpcode → s'.fetched = .unknownOpcode) ∧
        (s.fetched = .truncated → s'.fetched = .truncated)))
end

