-- ==== Sys2Proof/Laws/Decode.lean ====
section
/-! SUPPORT. The opcode map read backwards, and the byte order of operands. -/

namespace Sys2Proof

theorem Mnemonic.mem_all (n : Mnemonic) : n ∈ Mnemonic.all := by
  cases n <;> decide

theorem OpcodeMap.bytes_eq_map (m : OpcodeMap) : m.bytes = Mnemonic.all.map m.byteOf := rfl

theorem OpcodeMap.valid_iff (m : OpcodeMap) : m.valid = true ↔ m.bytes.Nodup ∧ 0xFF#8 ∉ m.bytes := by
  simp [OpcodeMap.valid]

/-- A valid map gives different mnemonics different bytes. -/
theorem OpcodeMap.byteOf_injective {m : OpcodeMap} (h : m.valid = true) {n n' : Mnemonic}
    (hb : m.byteOf n = m.byteOf n') : n = n' := by
  have hd := ((OpcodeMap.valid_iff m).mp h).1
  rw [OpcodeMap.bytes_eq_map] at hd
  exact List.inj_on_of_nodup_map hd (Mnemonic.mem_all n) (Mnemonic.mem_all n') hb

/-- A byte that is read as a mnemonic is that mnemonic's byte. -/
theorem OpcodeMap.byteOf_of_ofByte {m : OpcodeMap} {b : Byte} {n : Mnemonic} (h : m.ofByte b = some n) :
    m.byteOf n = b := by
  simpa using List.find?_some h

/-- Under a valid map a mnemonic's byte is read as that mnemonic. -/
theorem OpcodeMap.ofByte_byteOf {m : OpcodeMap} (h : m.valid = true) (n : Mnemonic) :
    m.ofByte (m.byteOf n) = some n := by
  cases hf : m.ofByte (m.byteOf n) with
  | none =>
    have := List.find?_eq_none.mp hf n (Mnemonic.mem_all n)
    simp at this
  | some n' => rw [OpcodeMap.byteOf_injective h (OpcodeMap.byteOf_of_ofByte hf)]

theorem OpcodeMap.ofByte_eq_none (m : OpcodeMap) (b : Byte) : m.ofByte b = none ↔ b ∉ m.bytes := by
  simp only [OpcodeMap.ofByte, List.find?_eq_none, OpcodeMap.bytes_eq_map, List.mem_map, not_exists, not_and, beq_iff_eq]

theorem decode_cons (m : OpcodeMap) (op : Byte) (bs : List Byte) :
    decode m (op :: bs) = match m.ofByte op with | none => .unknownOpcode | some n => decodeOperands n bs := rfl

/-- Once the opcode is recognized, the decoder does not miss it. -/
theorem decodeOperands_ne_noByte (n : Mnemonic) (bs : List Byte) : decodeOperands n bs ≠ .noByte := by
  have h1 (mk) : operandsR mk bs ≠ .noByte := by unfold operandsR; split <;> simp
  have h2 (mk) : operandsRR mk bs ≠ .noByte := by unfold operandsRR; split <;> simp
  have h3 (mk) : operandsRRR mk bs ≠ .noByte := by unfold operandsRRR; split <;> simp
  have h4 (mk) : operandsRI mk bs ≠ .noByte := by unfold operandsRI; split <;> simp
  have h5 (mk) : operandsA mk bs ≠ .noByte := by unfold operandsA; split <;> simp
  cases n <;> first | exact h1 _ | exact h2 _ | exact h3 _ | exact h4 _ | exact h5 _ | exact nofun

theorem be16_toNat (b1 b2 : Byte) : (be16 b1 b2).toNat = b1.toNat * 2 ^ 8 + b2.toNat := by
  have h2 := b2.isLt
  unfold be16
  rw [BitVec.toNat_append, Nat.shiftLeft_eq, Nat.mul_comm, Nat.two_pow_add_eq_or_of_lt h2]

theorem be32_toNat (b1 b2 b3 b4 : Byte) :
    (be32 b1 b2 b3 b4).toNat = b1.toNat * 2 ^ 24 + b2.toNat * 2 ^ 16 + b3.toNat * 2 ^ 8 + b4.toNat := by
  have h2 := b2.isLt
  have h3 := b3.isLt
  have h4 := b4.isLt
  unfold be32
  rw [BitVec.toNat_append, Nat.shiftLeft_eq, Nat.mul_comm, ← Nat.two_pow_add_eq_or_of_lt h4,
    BitVec.toNat_append, Nat.shiftLeft_eq, Nat.mul_comm _ (2 ^ 8), ← Nat.two_pow_add_eq_or_of_lt h3,
    BitVec.toNat_append, Nat.shiftLeft_eq, Nat.mul_comm _ (2 ^ 8), ← Nat.two_pow_add_eq_or_of_lt h2]
  omega

/-- The bytes of an address, put together, are the address. -/
theorem be16_extract (a : Addr) : be16 (a.extractLsb' 8 8) (a.extractLsb' 0 8) = a := by
  apply BitVec.eq_of_toNat_eq
  have h := a.isLt
  rw [be16_toNat, BitVec.extractLsb'_toNat, BitVec.extractLsb'_toNat, Nat.shiftRight_eq_div_pow,
    Nat.shiftRight_eq_div_pow]
  omega

/-- The bytes of an immediate, put together, are the immediate. -/
theorem be32_extract (v : Word) :
    be32 (v.extractLsb' 24 8) (v.extractLsb' 16 8) (v.extractLsb' 8 8) (v.extractLsb' 0 8) = v := by
  apply BitVec.eq_of_toNat_eq
  have h := v.isLt
  simp only [be32_toNat, BitVec.extractLsb'_toNat, Nat.shiftRight_eq_div_pow]
  omega

/-- The bytes of an address put together from two bytes are those bytes. -/
theorem be16Bytes_be16 (b1 b2 : Byte) : be16Bytes (be16 b1 b2) = [b1, b2] := by
  have h1 := b1.isLt
  have h2 := b2.isLt
  unfold be16Bytes
  congr 1 <;> [skip; congr 1] <;> apply BitVec.eq_of_toNat_eq <;>
    simp only [be16_toNat, BitVec.extractLsb'_toNat, Nat.shiftRight_eq_div_pow] <;> omega

/-- The bytes of an immediate put together from four bytes are those bytes. -/
theorem be32Bytes_be32 (b1 b2 b3 b4 : Byte) : be32Bytes (be32 b1 b2 b3 b4) = [b1, b2, b3, b4] := by
  have h1 := b1.isLt
  have h2 := b2.isLt
  have h3 := b3.isLt
  have h4 := b4.isLt
  unfold be32Bytes
  simp only [List.cons.injEq, and_true]
  refine ⟨?_, ?_, ?_, ?_⟩ <;> apply BitVec.eq_of_toNat_eq <;>
    simp only [be32_toNat, BitVec.extractLsb'_toNat, Nat.shiftRight_eq_div_pow] <;> omega

end Sys2Proof
end

