-- ==== Sys2Proof/Laws/Memory.lean ====
section
/-! SUPPORT. Memory: a write is read back and leaves every other address alone, and it keeps the canonical form and the
bound on the listed addresses. -/

namespace Sys2Proof.Machine

@[simp] theorem Memory.read_nil (a : Nat) : Memory.read [] a = Memory.unlisted := rfl

theorem Memory.read_cons (b : Nat) (v : Byte) (m : Memory) (a : Nat) :
    Memory.read ((b, v) :: m) a = if b = a then v else Memory.read m a := rfl

theorem Memory.wfFrom_cons (lo a : Nat) (v : Byte) (m : Memory) :
    Memory.wfFrom lo ((a, v) :: m) = true ↔ lo ≤ a ∧ v ≠ Memory.unlisted ∧ Memory.wfFrom (a + 1) m = true := by
  simp [Memory.wfFrom, and_assoc]

theorem Memory.wfFrom_mono {lo lo' : Nat} (h : lo' ≤ lo) {m : Memory} (hm : Memory.wfFrom lo m = true) :
    Memory.wfFrom lo' m = true := by
  cases m with
  | nil => rfl
  | cons c m =>
    obtain ⟨a, v⟩ := c
    rw [Memory.wfFrom_cons] at hm ⊢
    exact ⟨h.trans hm.1, hm.2⟩

/-- Below its first possible address a canonical memory reads as unlisted. -/
theorem Memory.read_of_lt {m : Memory} {lo a : Nat} (hm : Memory.wfFrom lo m = true) (h : a < lo) :
    m.read a = Memory.unlisted := by
  induction m generalizing lo with
  | nil => rfl
  | cons c m ih =>
    obtain ⟨b, v⟩ := c
    rw [Memory.wfFrom_cons] at hm
    rw [Memory.read_cons, if_neg (by omega), ih hm.2.2 (by omega)]

/-- The cell of a byte, put before a memory that lists only higher addresses, reads as the byte there. -/
theorem Memory.read_cell_append (a : Nat) (v : Byte) (m : Memory) (b : Nat)
    (h : v = Memory.unlisted → m.read a = Memory.unlisted) :
    Memory.read (Memory.cell a v ++ m) b = if a = b then v else m.read b := by
  unfold Memory.cell
  split
  · rename_i hv
    split
    · subst_vars; simpa using h rfl
    · simp
  · simp [Memory.read_cons]

theorem Memory.wfFrom_cell_append {lo a : Nat} (v : Byte) {m : Memory} (h : lo ≤ a)
    (hm : Memory.wfFrom (a + 1) m = true) : Memory.wfFrom lo (Memory.cell a v ++ m) = true := by
  unfold Memory.cell
  split
  · exact Memory.wfFrom_mono (by omega) hm
  · rename_i hv
    simpa [Memory.wfFrom_cons] using ⟨h, hv, hm⟩

/-- Reading after a write: the byte written at its own address, what was there before at every other. -/
theorem Memory.read_write_from {m : Memory} {lo : Nat} (hm : Memory.wfFrom lo m = true) (a : Nat) (v : Byte) (b : Nat) :
    (m.write a v).read b = if a = b then v else m.read b := by
  induction m generalizing lo with
  | nil => simpa [Memory.write] using Memory.read_cell_append a v [] b (fun _ => rfl)
  | cons c m ih =>
    obtain ⟨d, w⟩ := c
    have hc := (Memory.wfFrom_cons lo d w m).mp hm
    unfold Memory.write
    split
    · rename_i hlt
      refine Memory.read_cell_append a v _ b fun _ => ?_
      rw [Memory.read_cons, if_neg (by omega), Memory.read_of_lt hc.2.2 (by omega)]
    · split
      · rename_i _ heq
        subst heq
        rw [Memory.read_cell_append a v m b fun _ => Memory.read_of_lt hc.2.2 (by omega)]
        simp only [Memory.read_cons]
        split <;> rfl
      · rename_i hlt hne
        simp only [Memory.read_cons, ih hc.2.2]
        split
        · rename_i hdb
          rw [if_neg (by omega)]
        · rfl

theorem Memory.read_write {m : Memory} (hm : m.wf = true) (a : Nat) (v : Byte) (b : Nat) :
    (m.write a v).read b = if a = b then v else m.read b := Memory.read_write_from hm a v b

theorem Memory.wfFrom_write {m : Memory} {lo : Nat} (hm : Memory.wfFrom lo m = true) {a : Nat} (h : lo ≤ a) (v : Byte) :
    Memory.wfFrom lo (m.write a v) = true := by
  induction m generalizing lo with
  | nil => simpa [Memory.write] using Memory.wfFrom_cell_append v h (m := []) rfl
  | cons c m ih =>
    obtain ⟨d, w⟩ := c
    have hc := (Memory.wfFrom_cons lo d w m).mp hm
    unfold Memory.write
    split
    · exact Memory.wfFrom_cell_append v h ((Memory.wfFrom_cons _ d w m).mpr ⟨by omega, hc.2⟩)
    · split
      · rename_i _ heq
        subst heq
        exact Memory.wfFrom_cell_append v h hc.2.2
      · exact (Memory.wfFrom_cons _ d w _).mpr ⟨hc.1, hc.2.1, ih hc.2.2 (by omega)⟩

/-- A write keeps the canonical form. -/
theorem Memory.wf_write {m : Memory} (hm : m.wf = true) (a : Nat) (v : Byte) : (m.write a v).wf = true :=
  Memory.wfFrom_write hm (Nat.zero_le a) v

theorem Memory.below_cell (n a : Nat) (v : Byte) (h : a < n) : Memory.below n (Memory.cell a v) = true := by
  unfold Memory.cell
  split <;> simp [Memory.below, h]

theorem Memory.below_append (n : Nat) (m m' : Memory) :
    Memory.below n (m ++ m') = true ↔ Memory.below n m = true ∧ Memory.below n m' = true := by
  simp only [Memory.below, List.all_append, Bool.and_eq_true]

theorem Memory.below_cons (n : Nat) (c : Host.Cell) (m : Memory) :
    Memory.below n (c :: m) = true ↔ c.1 < n ∧ Memory.below n m = true := by
  simp [Memory.below]

/-- A write inside memory keeps the bound on the listed addresses. -/
theorem Memory.below_write {m : Memory} {n : Nat} (hm : m.below n = true) {a : Nat} (h : a < n) (v : Byte) :
    (m.write a v).below n = true := by
  induction m with
  | nil => simpa [Memory.write] using Memory.below_cell n a v h
  | cons c m ih =>
    obtain ⟨d, w⟩ := c
    have hc := (Memory.below_cons n (d, w) m).mp hm
    unfold Memory.write
    split
    · exact (Memory.below_append n _ _).mpr ⟨Memory.below_cell n a v h, hm⟩
    · split
      · exact (Memory.below_append n _ _).mpr ⟨Memory.below_cell n a v h, hc.2⟩
      · exact (Memory.below_cons n _ _).mpr ⟨hc.1, ih hc.2⟩

/-! ## The accesses of CORE -/

theorem State.memRead_of_lt (s : State) {a : Nat} (h : a < s.cfg.memSize) : s.memRead a = some (s.mem.read a) := if_pos h

theorem State.memRead_eq_none (s : State) (a : Nat) : s.memRead a = none ↔ s.cfg.memSize ≤ a := by
  unfold State.memRead
  split <;> simp <;> omega

/-- Everything a store can do: it is inside memory, and it replaces the byte there. -/
theorem State.memWrite_eq_some {s t : State} {a : Nat} {v : Byte} (h : s.memWrite a v = some t) :
    a < s.cfg.memSize ∧ t = { s with mem := s.mem.write a v } := by
  unfold State.memWrite at h
  split at h
  · exact ⟨‹_›, (Option.some.inj h).symm⟩
  · cases h

theorem State.memWrite_of_lt (s : State) {a : Nat} (h : a < s.cfg.memSize) (v : Byte) :
    s.memWrite a v = some { s with mem := s.mem.write a v } := if_pos h

theorem State.memWrite_eq_none (s : State) (a : Nat) (v : Byte) : s.memWrite a v = none ↔ s.cfg.memSize ≤ a := by
  unfold State.memWrite
  split <;> simp <;> omega

end Sys2Proof.Machine
end

