-- ==== Sys2Proof/Laws/State.lean ====
section
/-! SUPPORT. One lemma per field per update of State: what each named update writes, and that it leaves every other field
alone. Each is true by rfl and in the simp set, so no later proof unfolds a record update. -/

namespace Sys2Proof.Machine

@[simp] theorem State.writeReg_cfg (s : State) (r : RegIdx) (v : Word) : (s.writeReg r v).cfg = s.cfg := rfl
@[simp] theorem State.writeReg_regs (s : State) (r : RegIdx) (v : Word) : (s.writeReg r v).regs = s.regs.set r.toNat v := rfl
@[simp] theorem State.writeReg_pc (s : State) (r : RegIdx) (v : Word) : (s.writeReg r v).pc = s.pc := rfl
@[simp] theorem State.writeReg_flag (s : State) (r : RegIdx) (v : Word) : (s.writeReg r v).flag = s.flag := rfl
@[simp] theorem State.writeReg_stk (s : State) (r : RegIdx) (v : Word) : (s.writeReg r v).stk = s.stk := rfl
@[simp] theorem State.writeReg_sp (s : State) (r : RegIdx) (v : Word) : (s.writeReg r v).sp = s.sp := rfl
@[simp] theorem State.writeReg_mem (s : State) (r : RegIdx) (v : Word) : (s.writeReg r v).mem = s.mem := rfl
@[simp] theorem State.writeReg_codeLen (s : State) (r : RegIdx) (v : Word) : (s.writeReg r v).codeLen = s.codeLen := rfl
@[simp] theorem State.writeReg_status (s : State) (r : RegIdx) (v : Word) : (s.writeReg r v).status = s.status := rfl
@[simp] theorem State.writeReg_stopReason (s : State) (r : RegIdx) (v : Word) : (s.writeReg r v).stopReason = s.stopReason := rfl
@[simp] theorem State.writeReg_programLoaded (s : State) (r : RegIdx) (v : Word) : (s.writeReg r v).programLoaded = s.programLoaded := rfl
@[simp] theorem State.writeReg_draws (s : State) (r : RegIdx) (v : Word) : (s.writeReg r v).draws = s.draws := rfl

@[simp] theorem State.setPc_cfg (s : State) (v : Word) : (s.setPc v).cfg = s.cfg := rfl
@[simp] theorem State.setPc_regs (s : State) (v : Word) : (s.setPc v).regs = s.regs := rfl
@[simp] theorem State.setPc_pc (s : State) (v : Word) : (s.setPc v).pc = v := rfl
@[simp] theorem State.setPc_flag (s : State) (v : Word) : (s.setPc v).flag = s.flag := rfl
@[simp] theorem State.setPc_stk (s : State) (v : Word) : (s.setPc v).stk = s.stk := rfl
@[simp] theorem State.setPc_sp (s : State) (v : Word) : (s.setPc v).sp = s.sp := rfl
@[simp] theorem State.setPc_mem (s : State) (v : Word) : (s.setPc v).mem = s.mem := rfl
@[simp] theorem State.setPc_codeLen (s : State) (v : Word) : (s.setPc v).codeLen = s.codeLen := rfl
@[simp] theorem State.setPc_status (s : State) (v : Word) : (s.setPc v).status = s.status := rfl
@[simp] theorem State.setPc_stopReason (s : State) (v : Word) : (s.setPc v).stopReason = s.stopReason := rfl
@[simp] theorem State.setPc_programLoaded (s : State) (v : Word) : (s.setPc v).programLoaded = s.programLoaded := rfl
@[simp] theorem State.setPc_draws (s : State) (v : Word) : (s.setPc v).draws = s.draws := rfl

@[simp] theorem State.advance_cfg (s : State) (n : Nat) : (s.advance n).cfg = s.cfg := rfl
@[simp] theorem State.advance_regs (s : State) (n : Nat) : (s.advance n).regs = s.regs := rfl
@[simp] theorem State.advance_pc (s : State) (n : Nat) : (s.advance n).pc = s.pc + BitVec.ofNat 32 n := rfl
@[simp] theorem State.advance_flag (s : State) (n : Nat) : (s.advance n).flag = s.flag := rfl
@[simp] theorem State.advance_stk (s : State) (n : Nat) : (s.advance n).stk = s.stk := rfl
@[simp] theorem State.advance_sp (s : State) (n : Nat) : (s.advance n).sp = s.sp := rfl
@[simp] theorem State.advance_mem (s : State) (n : Nat) : (s.advance n).mem = s.mem := rfl
@[simp] theorem State.advance_codeLen (s : State) (n : Nat) : (s.advance n).codeLen = s.codeLen := rfl
@[simp] theorem State.advance_status (s : State) (n : Nat) : (s.advance n).status = s.status := rfl
@[simp] theorem State.advance_stopReason (s : State) (n : Nat) : (s.advance n).stopReason = s.stopReason := rfl
@[simp] theorem State.advance_programLoaded (s : State) (n : Nat) : (s.advance n).programLoaded = s.programLoaded := rfl
@[simp] theorem State.advance_draws (s : State) (n : Nat) : (s.advance n).draws = s.draws := rfl

@[simp] theorem State.start_cfg (s : State) : (s.start).cfg = s.cfg := rfl
@[simp] theorem State.start_regs (s : State) : (s.start).regs = s.regs := rfl
@[simp] theorem State.start_pc (s : State) : (s.start).pc = s.pc := rfl
@[simp] theorem State.start_flag (s : State) : (s.start).flag = s.flag := rfl
@[simp] theorem State.start_stk (s : State) : (s.start).stk = s.stk := rfl
@[simp] theorem State.start_sp (s : State) : (s.start).sp = s.sp := rfl
@[simp] theorem State.start_mem (s : State) : (s.start).mem = s.mem := rfl
@[simp] theorem State.start_codeLen (s : State) : (s.start).codeLen = s.codeLen := rfl
@[simp] theorem State.start_status (s : State) : (s.start).status = .running := rfl
@[simp] theorem State.start_stopReason (s : State) : (s.start).stopReason = s.stopReason := rfl
@[simp] theorem State.start_programLoaded (s : State) : (s.start).programLoaded = s.programLoaded := rfl
@[simp] theorem State.start_draws (s : State) : (s.start).draws = s.draws := rfl

@[simp] theorem State.raise_cfg (s : State) (r : StopReason) : (s.raise r).cfg = s.cfg := rfl
@[simp] theorem State.raise_regs (s : State) (r : StopReason) : (s.raise r).regs = s.regs := rfl
@[simp] theorem State.raise_pc (s : State) (r : StopReason) : (s.raise r).pc = s.pc := rfl
@[simp] theorem State.raise_flag (s : State) (r : StopReason) : (s.raise r).flag = s.flag := rfl
@[simp] theorem State.raise_stk (s : State) (r : StopReason) : (s.raise r).stk = s.stk := rfl
@[simp] theorem State.raise_sp (s : State) (r : StopReason) : (s.raise r).sp = s.sp := rfl
@[simp] theorem State.raise_mem (s : State) (r : StopReason) : (s.raise r).mem = s.mem := rfl
@[simp] theorem State.raise_codeLen (s : State) (r : StopReason) : (s.raise r).codeLen = s.codeLen := rfl
@[simp] theorem State.raise_status (s : State) (r : StopReason) : (s.raise r).status = .faulted := rfl
@[simp] theorem State.raise_stopReason (s : State) (r : StopReason) : (s.raise r).stopReason = r := rfl
@[simp] theorem State.raise_programLoaded (s : State) (r : StopReason) : (s.raise r).programLoaded = s.programLoaded := rfl
@[simp] theorem State.raise_draws (s : State) (r : StopReason) : (s.raise r).draws = s.draws := rfl

@[simp] theorem State.haltWith_cfg (s : State) (r : StopReason) : (s.haltWith r).cfg = s.cfg := rfl
@[simp] theorem State.haltWith_regs (s : State) (r : StopReason) : (s.haltWith r).regs = s.regs := rfl
@[simp] theorem State.haltWith_pc (s : State) (r : StopReason) : (s.haltWith r).pc = s.pc := rfl
@[simp] theorem State.haltWith_flag (s : State) (r : StopReason) : (s.haltWith r).flag = s.flag := rfl
@[simp] theorem State.haltWith_stk (s : State) (r : StopReason) : (s.haltWith r).stk = s.stk := rfl
@[simp] theorem State.haltWith_sp (s : State) (r : StopReason) : (s.haltWith r).sp = s.sp := rfl
@[simp] theorem State.haltWith_mem (s : State) (r : StopReason) : (s.haltWith r).mem = s.mem := rfl
@[simp] theorem State.haltWith_codeLen (s : State) (r : StopReason) : (s.haltWith r).codeLen = s.codeLen := rfl
@[simp] theorem State.haltWith_status (s : State) (r : StopReason) : (s.haltWith r).status = .halted := rfl
@[simp] theorem State.haltWith_stopReason (s : State) (r : StopReason) : (s.haltWith r).stopReason = r := rfl
@[simp] theorem State.haltWith_programLoaded (s : State) (r : StopReason) : (s.haltWith r).programLoaded = s.programLoaded := rfl
@[simp] theorem State.haltWith_draws (s : State) (r : StopReason) : (s.haltWith r).draws = s.draws := rfl

@[simp] theorem State.setFlag_cfg (s : State) (b : Bool) : (s.setFlag b).cfg = s.cfg := rfl
@[simp] theorem State.setFlag_regs (s : State) (b : Bool) : (s.setFlag b).regs = s.regs := rfl
@[simp] theorem State.setFlag_pc (s : State) (b : Bool) : (s.setFlag b).pc = s.pc := rfl
@[simp] theorem State.setFlag_flag (s : State) (b : Bool) : (s.setFlag b).flag = b := rfl
@[simp] theorem State.setFlag_stk (s : State) (b : Bool) : (s.setFlag b).stk = s.stk := rfl
@[simp] theorem State.setFlag_sp (s : State) (b : Bool) : (s.setFlag b).sp = s.sp := rfl
@[simp] theorem State.setFlag_mem (s : State) (b : Bool) : (s.setFlag b).mem = s.mem := rfl
@[simp] theorem State.setFlag_codeLen (s : State) (b : Bool) : (s.setFlag b).codeLen = s.codeLen := rfl
@[simp] theorem State.setFlag_status (s : State) (b : Bool) : (s.setFlag b).status = s.status := rfl
@[simp] theorem State.setFlag_stopReason (s : State) (b : Bool) : (s.setFlag b).stopReason = s.stopReason := rfl
@[simp] theorem State.setFlag_programLoaded (s : State) (b : Bool) : (s.setFlag b).programLoaded = s.programLoaded := rfl
@[simp] theorem State.setFlag_draws (s : State) (b : Bool) : (s.setFlag b).draws = s.draws := rfl

end Sys2Proof.Machine
end

