-- ==== Sys2Proof/Laws/Ops.lean ====
section
/-! SUPPORT. One lemma per shared operation: everything it can do. -/

namespace Sys2Proof.Machine

/-! ## Registers -/

theorem State.readReg_writeReg (s : State) {rd : RegIdx} (h : rd.toNat < s.regs.length) (v : Word) (r : RegIdx) :
    (s.writeReg rd v).readReg r = if r = rd then v else s.readReg r := by
  unfold State.readReg State.writeReg
  by_cases hr : r = rd
  · subst hr
    simp [List.getD_eq_getElem?_getD, h]
  · have hne : rd.toNat ≠ r.toNat := fun he => hr (BitVec.eq_of_toNat_eq he.symm)
    simp [List.getD_eq_getElem?_getD, hr, hne]

theorem State.readReg_congr {s t : State} (h : t.regs = s.regs) (r : RegIdx) : t.readReg r = s.readReg r := by
  simp only [State.readReg, h]

theorem State.regValid_iff (s : State) (r : RegIdx) : s.regValid r = true ↔ r.toNat < s.cfg.regCount := by
  simp [State.regValid]

/-- The engine's register check is well-formedness. -/
theorem Instr.wf_eq_all (i : Instr) (s : State) : i.wf s.cfg = i.regs.all s.regValid := rfl

theorem State.checkRegs_of_all (s : State) {rs : List RegIdx} (h : rs.all s.regValid = true) (body : Result) :
    s.checkRegs rs body = body := if_pos h

theorem State.checkRegs_of_not_all (s : State) {rs : List RegIdx} (h : rs.all s.regValid = false) (body : Result) :
    s.checkRegs rs body = .next (s.raise .invalidRegister) := if_neg (by simp [h])

/-! ## The stack -/

theorem State.push_full {s : State} (h : s.sp = s.cfg.stackDepth) (v : Word) : s.push v = none := if_pos h

theorem State.push_room {s : State} (h : s.sp ≠ s.cfg.stackDepth) (v : Word) :
    s.push v = some { s with stk := s.stk.set s.sp v, sp := s.sp + 1 } := if_neg h

theorem State.pop_empty {s : State} (h : s.sp = 0) : s.pop = none := if_pos h

theorem State.pop_some {s : State} (h : s.sp ≠ 0) :
    s.pop = some (s.stk.getD (s.sp - 1) 0#32, { s with sp := s.sp - 1 }) := if_neg h

theorem State.pushThen_full {s : State} (h : s.sp = s.cfg.stackDepth) (v : Word) (k : State → State) :
    s.pushThen v k = .next (s.raise .stackOverflow) := by
  unfold State.pushThen
  rw [State.push_full h]

theorem State.pushThen_room {s : State} (h : s.sp ≠ s.cfg.stackDepth) (v : Word) (k : State → State) :
    s.pushThen v k = .next (k { s with stk := s.stk.set s.sp v, sp := s.sp + 1 }) := by
  unfold State.pushThen
  rw [State.push_room h]

theorem State.popThen_empty {s : State} (h : s.sp = 0) (k : Word → State → State) :
    s.popThen k = .next (s.raise .stackUnderflow) := by
  unfold State.popThen
  rw [State.pop_empty h]

theorem State.popThen_some {s : State} (h : s.sp ≠ 0) (k : Word → State → State) :
    s.popThen k = .next (k (s.stk.getD (s.sp - 1) 0#32) { s with sp := s.sp - 1 }) := by
  unfold State.popThen
  rw [State.pop_some h]

/-! ## Jumps -/

theorem State.jumpIf_eq (s : State) (taken : Bool) (addr : Addr) :
    s.jumpIf taken addr = s.setPc (if taken then zextAddr addr else s.pc) := by
  cases taken <;> rfl

theorem zextByte_toNat (b : Byte) : (zextByte b).toNat = b.toNat := by
  unfold zextByte
  rw [BitVec.toNat_setWidth]
  omega

theorem zextAddr_toNat (a : Addr) : (zextAddr a).toNat = a.toNat := by
  unfold zextAddr
  rw [BitVec.toNat_setWidth]
  omega

theorem truncByte_toNat (v : Word) : (truncByte v).toNat = v.toNat % 2 ^ 8 := BitVec.toNat_setWidth 8 v

theorem shiftAmount_lt (v : Word) : shiftAmount v < 32 := by
  unfold shiftAmount
  rw [BitVec.toNat_and]
  exact Nat.lt_of_le_of_lt Nat.and_le_right (by decide)

end Sys2Proof.Machine
end

