-- ==== Sys2Proof/Laws/Exec.lean ====
section
/-! SUPPORT. Everything an instruction can do, said once: `exec_effect`. A claim about every instruction is a case split
over `Effect`, not over the instructions. -/

namespace Sys2Proof.Machine

/-- The instructions that set `pc` and do nothing else. -/
def Instr.isJump : Instr → Bool
  | .jmp _ | .jz _ | .jnz _ => true
  | _ => false

/-- What the instruction `i`, run in the state `s`, can answer. -/
inductive Effect (i : Instr) (s : State) : Result → Prop
  | invalidRegister (h : i.wf s.cfg = false) : Effect i s (.next (s.raise .invalidRegister))
  | stackOverflow (hi : (∃ rs, i = .push rs) ∨ ∃ a, i = .call a) (hwf : i.wf s.cfg = true)
      (h : s.sp = s.cfg.stackDepth) : Effect i s (.next (s.raise .stackOverflow))
  | stackUnderflow (hi : (∃ rd, i = .pop rd) ∨ i = .ret) (hwf : i.wf s.cfg = true) (h : s.sp = 0) :
      Effect i s (.next (s.raise .stackUnderflow))
  | moduloByZero (rd rs1 rs2 : RegIdx) (hi : i = .mod rd rs1 rs2) (hwf : i.wf s.cfg = true)
      (h : s.readReg rs2 = 0#32) : Effect i s (.next (s.raise .divideOrModuloByZero))
  | halted (hi : i = .halt) : Effect i s (.next (s.haltWith .halt))
  | wroteReg (rd : RegIdx) (v : Word) (n : Nat) (hi : i.destReg = some rd) (hpop : ∀ r, i ≠ .pop r)
      (hn : n = s.draws ∨ i = .random rd) (hwf : i.wf s.cfg = true) : Effect i s (.next { s.writeReg rd v with draws := n })
  | wroteFlag (rs1 rs2 : RegIdx) (hi : i = .cmp rs1 rs2) (hwf : i.wf s.cfg = true) :
      Effect i s (.next (s.setFlag (equalFlag (s.readReg rs1) (s.readReg rs2))))
  | jumped (v : Word) (hi : Instr.isJump i = true) : Effect i s (.next (s.setPc v))
  | stored (rs ra : RegIdx) (hi : i = .storeMem rs ra) (hwf : i.wf s.cfg = true) (h : s.dataAddr ra < s.cfg.memSize) :
      Effect i s (.next { s with mem := s.mem.write (s.dataAddr ra) (truncByte (s.readReg rs)) })
  | outside (ra : RegIdx) (h : s.cfg.memSize ≤ s.dataAddr ra) : Effect i s (.fault (.outsideMemory (s.dataAddr ra)))
  | pushed (rs : RegIdx) (hi : i = .push rs) (hwf : i.wf s.cfg = true) (h : s.sp ≠ s.cfg.stackDepth) :
      Effect i s (.next { s with stk := s.stk.set s.sp (s.readReg rs), sp := s.sp + 1 })
  | called (a : Addr) (hi : i = .call a) (h : s.sp ≠ s.cfg.stackDepth) :
      Effect i s (.next { s with stk := s.stk.set s.sp s.pc, sp := s.sp + 1, pc := zextAddr a })
  | popped (rd : RegIdx) (hi : i = .pop rd) (hwf : i.wf s.cfg = true) (h : s.sp ≠ 0) :
      Effect i s (.next ({ s with sp := s.sp - 1 }.writeReg rd (s.stk.getD (s.sp - 1) 0#32)))
  | returned (hi : i = .ret) (h : s.sp ≠ 0) :
      Effect i s (.next { s with sp := s.sp - 1, pc := s.stk.getD (s.sp - 1) 0#32 })

theorem effect_checked {i : Instr} {s : State} {body : Result} (h : i.wf s.cfg = true → Effect i s body) :
    Effect i s (s.checkRegs i.regs body) := by
  by_cases hwf : i.wf s.cfg = true
  · rw [State.checkRegs_of_all s hwf]
    exact h hwf
  · rw [State.checkRegs_of_not_all s (by simpa [Instr.wf_eq_all] using hwf)]
    exact .invalidRegister (by simpa using hwf)

/-- An instruction that computes one register and does nothing else. -/
theorem effect_writeReg {i : Instr} {s : State} {rd : RegIdx} {v : Word} (hi : i.destReg = some rd)
    (hpop : ∀ r, i ≠ .pop r) (hwf : i.wf s.cfg = true) : Effect i s (.next (s.writeReg rd v)) :=
  .wroteReg rd v s.draws hi hpop (.inl rfl) hwf

theorem effect_push {i : Instr} {s : State} {v : Word} {k : State → State}
    (hi : (∃ rs, i = .push rs) ∨ ∃ a, i = .call a) (hwf : i.wf s.cfg = true)
    (h : s.sp ≠ s.cfg.stackDepth → Effect i s (.next (k { s with stk := s.stk.set s.sp v, sp := s.sp + 1 }))) :
    Effect i s (s.pushThen v k) := by
  by_cases hs : s.sp = s.cfg.stackDepth
  · rw [State.pushThen_full hs]
    exact .stackOverflow hi hwf hs
  · rw [State.pushThen_room hs]
    exact h hs

theorem effect_pop {i : Instr} {s : State} {k : Word → State → State}
    (hi : (∃ rd, i = .pop rd) ∨ i = .ret) (hwf : i.wf s.cfg = true)
    (h : s.sp ≠ 0 → Effect i s (.next (k (s.stk.getD (s.sp - 1) 0#32) { s with sp := s.sp - 1 }))) :
    Effect i s (s.popThen k) := by
  by_cases hs : s.sp = 0
  · rw [State.popThen_empty hs]
    exact .stackUnderflow hi hwf hs
  · rw [State.popThen_some hs]
    exact h hs

/-- Everything `exec` can answer. -/
theorem exec_effect (i : Instr) (s : State) : Effect i s (exec i s) := by
  cases i with
  | halt => exact .halted rfl
  | load rd imm => exact effect_checked fun hwf => effect_writeReg rfl nofun hwf
  | move rd rs => exact effect_checked fun hwf => effect_writeReg rfl nofun hwf
  | add rd rs1 rs2 => exact effect_checked fun hwf => effect_writeReg rfl nofun hwf
  | sub rd rs1 rs2 => exact effect_checked fun hwf => effect_writeReg rfl nofun hwf
  | mul rd rs1 rs2 => exact effect_checked fun hwf => effect_writeReg rfl nofun hwf
  | xor rd rs1 rs2 => exact effect_checked fun hwf => effect_writeReg rfl nofun hwf
  | and rd rs1 rs2 => exact effect_checked fun hwf => effect_writeReg rfl nofun hwf
  | or rd rs1 rs2 => exact effect_checked fun hwf => effect_writeReg rfl nofun hwf
  | not rd rs => exact effect_checked fun hwf => effect_writeReg rfl nofun hwf
  | shiftL rd rs1 rs2 => exact effect_checked fun hwf => effect_writeReg rfl nofun hwf
  | shiftR rd rs1 rs2 => exact effect_checked fun hwf => effect_writeReg rfl nofun hwf
  | rotL rd rs1 rs2 => exact effect_checked fun hwf => effect_writeReg rfl nofun hwf
  | rotR rd rs1 rs2 => exact effect_checked fun hwf => effect_writeReg rfl nofun hwf
  | random rd => exact effect_checked fun hwf => .wroteReg rd _ _ rfl nofun (.inr rfl) hwf
  | mod rd rs1 rs2 =>
    refine effect_checked fun hwf => ?_
    split
    · exact .moduloByZero rd rs1 rs2 rfl hwf ‹_›
    · exact effect_writeReg rfl nofun hwf
  | loadMem rd ra =>
    refine effect_checked fun hwf => ?_
    split
    · exact .outside ra ((State.memRead_eq_none _ _).mp ‹_›)
    · exact effect_writeReg rfl nofun hwf
  | storeMem rs ra =>
    refine effect_checked fun hwf => ?_
    split
    · exact .outside ra ((State.memWrite_eq_none _ _ _).mp ‹_›)
    · obtain ⟨hlt, rfl⟩ := State.memWrite_eq_some ‹_›
      exact .stored rs ra rfl hwf hlt
  | cmp rs1 rs2 => exact effect_checked fun hwf => .wroteFlag rs1 rs2 rfl hwf
  | jmp a => exact .jumped _ rfl
  | jz a =>
    show Effect _ s (.next (s.jumpIf _ a))
    rw [State.jumpIf_eq]
    exact .jumped _ rfl
  | jnz a =>
    show Effect _ s (.next (s.jumpIf _ a))
    rw [State.jumpIf_eq]
    exact .jumped _ rfl
  | push rs => exact effect_checked fun hwf => effect_push (.inl ⟨rs, rfl⟩) hwf fun h => .pushed rs rfl hwf h
  | call a => exact effect_push (.inr ⟨a, rfl⟩) rfl fun h => .called a rfl h
  | pop rd => exact effect_checked fun hwf => effect_pop (.inl ⟨rd, rfl⟩) hwf fun h => .popped rd rfl hwf h
  | ret => exact effect_pop (.inr rfl) rfl fun h => .returned rfl h

end Sys2Proof.Machine
end

