-- ==== Sys2Proof/Laws/Engine.lean ====
section
/-! SUPPORT. The fetch window, and everything a step can do, said once. -/

namespace Sys2Proof.Machine

/-- The fetch window holds the bytes of memory from its address on, up to its length and to the end of memory. -/
theorem State.window_getElem? (s : State) (n a k : Nat) :
    (s.window n a)[k]? = if k < n then s.memRead (a + k) else none := by
  induction n generalizing a k with
  | zero => simp [State.window]
  | succ n ih =>
    unfold State.window
    cases hf : s.fetch8 a with
    | none =>
      have hle : s.cfg.memSize ≤ a := (State.memRead_eq_none s a).mp hf
      have : s.memRead (a + k) = none := (State.memRead_eq_none s (a + k)).mpr (by omega)
      simp [this]
    | some b =>
      cases k with
      | zero => rw [if_pos (by omega)]; exact hf.symm
      | succ k =>
        show (s.window n (a + 1))[k]? = _
        rw [ih, show a + 1 + k = a + (k + 1) by omega]
        simp only [Nat.add_lt_add_iff_right]

/-- The window is as long as memory allows. -/
theorem State.window_length (s : State) (n a : Nat) : (s.window n a).length = min n (s.cfg.memSize - a) := by
  induction n generalizing a with
  | zero => simp [State.window]
  | succ n ih =>
    unfold State.window
    cases hf : s.fetch8 a with
    | none =>
      have hle : s.cfg.memSize ≤ a := (State.memRead_eq_none s a).mp hf
      simp; omega
    | some b =>
      have hlt : ¬ s.cfg.memSize ≤ a := fun h => by
        have := (State.memRead_eq_none s a).mpr h
        rw [State.fetch8, this] at hf
        cases hf
      simp [ih]; omega

/-- Everything a step can do: a terminal no-op, the end of the code, the two faults of the decoder, an opcode fetch outside
memory, or the decoded instruction run with `pc` past it. -/
theorem engineStep_cases (run : Instr → State → Result) (s : State) :
    (s.terminal = true ∧ engineStep run s = .next s) ∨
    (s.terminal = false ∧ s.codeLen ≤ s.pc.toNat ∧
      engineStep run s = .next (s.start.haltWith .programCounterExhausted)) ∨
    (s.terminal = false ∧ s.pc.toNat < s.codeLen ∧ s.fetched = .noByte ∧
      engineStep run s = .fault (.outsideMemory s.pc.toNat)) ∨
    (s.terminal = false ∧ s.pc.toNat < s.codeLen ∧ s.fetched = .unknownOpcode ∧
      engineStep run s = .next ((s.start.advance 1).raise .unknownOpcode)) ∨
    (s.terminal = false ∧ s.pc.toNat < s.codeLen ∧ s.fetched = .truncated ∧
      engineStep run s = .next ((s.start.advance 1).raise .truncatedInstruction)) ∨
    (∃ i rest, s.terminal = false ∧ s.pc.toNat < s.codeLen ∧ s.fetched = .ok i rest ∧
      engineStep run s = run i (s.start.advance i.length)) := by
  unfold engineStep
  by_cases ht : s.terminal = true
  · exact .inl ⟨ht, if_pos ht⟩
  · have ht' : s.terminal = false := by simpa using ht
    rw [if_neg ht]
    by_cases hc : s.codeLen ≤ s.pc.toNat
    · exact .inr (.inl ⟨ht', hc, if_pos hc⟩)
    · rw [if_neg hc]
      have hlt : s.pc.toNat < s.codeLen := by omega
      cases hf : s.fetched with
      | noByte => exact .inr (.inr (.inl ⟨ht', hlt, rfl, rfl⟩))
      | unknownOpcode => exact .inr (.inr (.inr (.inl ⟨ht', hlt, rfl, rfl⟩)))
      | truncated => exact .inr (.inr (.inr (.inr (.inl ⟨ht', hlt, rfl, rfl⟩))))
      | ok i rest => exact .inr (.inr (.inr (.inr (.inr ⟨i, rest, ht', hlt, rfl, rfl⟩))))

/-- A byte inside memory is there to be fetched. -/
theorem State.fetched_ne_noByte {s : State} (h : s.pc.toNat < s.cfg.memSize) : s.fetched ≠ .noByte := by
  have hlen := State.window_length s maxLength s.pc.toNat
  unfold State.fetched
  cases hw : s.window maxLength s.pc.toNat with
  | nil =>
    rw [hw] at hlen
    simp [maxLength] at hlen
    omega
  | cons b bs =>
    rw [decode_cons]
    cases s.cfg.opcodeMap.ofByte b with
    | none => simp
    | some n => exact decodeOperands_ne_noByte n bs

/-- With a given draw, `exec` and `execWith` differ only in the byte RANDOM takes. -/
theorem execWith_of_not_random (rand : Byte) {i : Instr} (h : ∀ rd, i ≠ .random rd) (s : State) :
    execWith rand i s = exec i s := by
  cases i <;> first | rfl | exact absurd rfl (h _)

theorem exec_random (rd : RegIdx) (s : State) : exec (.random rd) s = execWith (Config.randByte s.draws) (.random rd) s :=
  rfl

/-- Everything an instruction can answer with the draw given: the effects are those of `exec`. -/
theorem execWith_effect (rand : Byte) (i : Instr) (s : State) : Effect i s (execWith rand i s) := by
  by_cases h : ∀ rd, i ≠ .random rd
  · rw [execWith_of_not_random rand h]
    exact exec_effect i s
  · obtain ⟨rd, hrd⟩ := not_forall.mp h
    obtain rfl := not_not.mp hrd
    exact effect_checked fun hwf => .wroteReg rd _ _ rfl nofun (.inr rfl) hwf

/-- `step` is `step(rand)` with the draw taken from the free values. -/
theorem step_eq_stepWith (s : State) : step s = stepWith (Config.randByte s.draws) s := by
  unfold step stepWith engineStep
  split
  · rfl
  · split
    · rfl
    · split <;> try rfl
      rename_i i _ _
      cases i <;> rfl

/-! ## Writing bytes one after the other -/

theorem State.writeBytes_cons (s : State) (base : Nat) (b : Byte) (bs : List Byte) :
    s.writeBytes base (b :: bs) = (s.memWrite base b).bind fun t => t.writeBytes (base + 1) bs := by
  show (match s.memWrite base b with | none => none | some t => t.writeBytes (base + 1) bs) = _
  cases s.memWrite base b <;> rfl

/-- Bytes that fit in memory are written: only memory changes, it keeps its form, and every address in the range reads as
the byte put there, every other as before. -/
theorem State.writeBytes_spec {s : State} (hwf : s.mem.wf = true) (hb : s.mem.below s.cfg.memSize = true) {base : Nat}
    {bs : List Byte} (h : base + bs.length ≤ s.cfg.memSize) :
    ∃ m, s.writeBytes base bs = some { s with mem := m } ∧ m.wf = true ∧ m.below s.cfg.memSize = true ∧
      ∀ a, m.read a = if base ≤ a ∧ a < base + bs.length then bs.getD (a - base) 0#8 else s.mem.read a := by
  induction bs generalizing s base with
  | nil => exact ⟨s.mem, rfl, hwf, hb, fun a => by rw [if_neg]; simp⟩
  | cons b bs ih =>
    simp only [List.length_cons] at h
    rw [State.writeBytes_cons, State.memWrite_of_lt s (by omega : base < s.cfg.memSize)]
    obtain ⟨m, he, hw, hbl, hr⟩ := ih (s := { s with mem := s.mem.write base b }) (Memory.wf_write hwf base b)
      (Memory.below_write hb (by omega) b) (base := base + 1) (by show base + 1 + bs.length ≤ s.cfg.memSize; omega)
    refine ⟨m, he, hw, hbl, fun a => ?_⟩
    rw [hr, Memory.read_write hwf]
    simp only [List.length_cons]
    by_cases h1 : a = base
    · subst h1
      rw [if_neg (by omega), if_pos rfl, if_pos (by omega)]
      simp
    · by_cases h2 : base + 1 ≤ a ∧ a < base + 1 + bs.length
      · rw [if_pos h2, if_pos (by omega), show a - base = a - (base + 1) + 1 by omega]
        simp
      · rw [if_neg h2, if_neg (by omega), if_neg (by omega)]

end Sys2Proof.Machine
end

