-- ==== Sys2Proof/Laws/PerInstr.lean ====
section
/-! SUPPORT. Facts about every instruction as syntax, one lemma per constructor. -/

namespace Sys2Proof.Laws.EncodedLength

/-- The encoding of the instruction is as long as its format says (spec/30_encoding.md R71). -/
def Statement (i : Instr) : Prop := ∀ m : OpcodeMap, (encode m i).length = i.length

theorem halt : Statement (.halt) := fun _ => rfl
theorem load (rd : RegIdx) (imm : Word) : Statement (.load rd imm) := fun _ => rfl
theorem move (rd rs : RegIdx) : Statement (.move rd rs) := fun _ => rfl
theorem add (rd rs1 rs2 : RegIdx) : Statement (.add rd rs1 rs2) := fun _ => rfl
theorem sub (rd rs1 rs2 : RegIdx) : Statement (.sub rd rs1 rs2) := fun _ => rfl
theorem mul (rd rs1 rs2 : RegIdx) : Statement (.mul rd rs1 rs2) := fun _ => rfl
theorem xor (rd rs1 rs2 : RegIdx) : Statement (.xor rd rs1 rs2) := fun _ => rfl
theorem and (rd rs1 rs2 : RegIdx) : Statement (.and rd rs1 rs2) := fun _ => rfl
theorem or (rd rs1 rs2 : RegIdx) : Statement (.or rd rs1 rs2) := fun _ => rfl
theorem not (rd rs : RegIdx) : Statement (.not rd rs) := fun _ => rfl
theorem loadMem (rd ra : RegIdx) : Statement (.loadMem rd ra) := fun _ => rfl
theorem storeMem (rs ra : RegIdx) : Statement (.storeMem rs ra) := fun _ => rfl
theorem jmp (addr : Addr) : Statement (.jmp addr) := fun _ => rfl
theorem jz (addr : Addr) : Statement (.jz addr) := fun _ => rfl
theorem jnz (addr : Addr) : Statement (.jnz addr) := fun _ => rfl
theorem cmp (rs1 rs2 : RegIdx) : Statement (.cmp rs1 rs2) := fun _ => rfl
theorem push (rs : RegIdx) : Statement (.push rs) := fun _ => rfl
theorem pop (rd : RegIdx) : Statement (.pop rd) := fun _ => rfl
theorem call (addr : Addr) : Statement (.call addr) := fun _ => rfl
theorem ret : Statement (.ret) := fun _ => rfl
theorem random (rd : RegIdx) : Statement (.random rd) := fun _ => rfl
theorem shiftL (rd rs1 rs2 : RegIdx) : Statement (.shiftL rd rs1 rs2) := fun _ => rfl
theorem shiftR (rd rs1 rs2 : RegIdx) : Statement (.shiftR rd rs1 rs2) := fun _ => rfl
theorem rotL (rd rs1 rs2 : RegIdx) : Statement (.rotL rd rs1 rs2) := fun _ => rfl
theorem rotR (rd rs1 rs2 : RegIdx) : Statement (.rotR rd rs1 rs2) := fun _ => rfl
theorem mod (rd rs1 rs2 : RegIdx) : Statement (.mod rd rs1 rs2) := fun _ => rfl

end Sys2Proof.Laws.EncodedLength
end

