-- ==== Sys2Proof/Laws/Safety.lean ====
section
/-! SUPPORT. The small lemmas of the notions the claims are stated in: legal configurations, terminal statuses, bytes that
stand in memory, and the updates that keep the invariant. -/

namespace Sys2Proof.Machine

/-! ## Configurations -/

theorem valid_iff (c : Config) :
    c.valid = true ↔ 1 ≤ c.memSize ∧ c.memSize ≤ 2 ^ 32 - 8 ∧ 1 ≤ c.regCount ∧ c.regCount ≤ 256 ∧
      c.codeCapacity ≤ c.memSize ∧ c.opcodeMap.valid = true := by
  simp only [Config.valid, Bool.and_eq_true, decide_eq_true_eq, and_assoc]

theorem hostValid_iff (c : Config) (h : HostParams) :
    h.valid c = true ↔ h.inputBase + h.inputCapacity ≤ c.memSize ∧ h.resultReg.toNat < c.regCount := by
  simp only [HostParams.valid, Bool.and_eq_true, decide_eq_true_eq]

theorem createInstance_of_valid {c : Config} {h : HostParams} (hc : c.valid = true) (hh : h.valid c = true) :
    createInstance c h = .next (State.resetWith c) := by
  simp [createInstance, hc, hh]

/-! ## Status -/

theorem State.terminal_eq_false (s : State) : s.terminal = false ↔ s.status = .ready ∨ s.status = .running := by
  unfold State.terminal
  cases s.status <;> simp

theorem State.terminal_eq_true (s : State) : s.terminal = true ↔ s.status = .halted ∨ s.status = .faulted := by
  unfold State.terminal
  cases s.status <;> simp

/-- Before the run has ended the stop reason is NONE. -/
theorem State.Inv.stopReason_none {s : State} (h : s.Inv) (ht : s.terminal = false) : s.stopReason = .none := by
  have hr := h.reason_ok
  rcases (State.terminal_eq_false s).mp ht with hs | hs <;> rw [hs] at hr <;>
    cases hsr : s.stopReason <;> rw [hsr] at hr <;> simp [Status.admits] at hr ⊢

/-! ## Addresses -/

theorem State.Inv.memSize_pos {s : State} (h : s.Inv) : 0 < s.cfg.memSize := ((valid_iff _).mp h.cfg_valid).1

/-- R54: a data address is inside memory. -/
theorem State.Inv.dataAddr_lt {s : State} (h : s.Inv) (ra : RegIdx) : s.dataAddr ra < s.cfg.memSize :=
  Nat.mod_lt _ h.memSize_pos

/-- R26, R103: an opcode is fetched inside memory. -/
theorem State.Inv.pc_lt_memSize {s : State} (h : s.Inv) (hp : s.pc.toNat < s.codeLen) : s.pc.toNat < s.cfg.memSize := by
  have h1 := h.codeLen_le
  have h2 := ((valid_iff _).mp h.cfg_valid).2.2.2.2.1
  omega

/-- Bytes that the fetch window shows stand in memory. -/
theorem State.holdsAt_of_window {s : State} {a : Nat} {bs : List Byte} (h : s.window bs.length a = bs) :
    s.HoldsAt a bs := by
  intro k b hk
  have hlt : k < bs.length := (List.getElem?_eq_some_iff.mp hk).1
  have hw := State.window_getElem? s bs.length a k
  rw [if_pos hlt, h, hk] at hw
  exact hw.symm

/-- A well-formed instruction's register operands name registers. -/
theorem lt_regCount_of_wf {i : Instr} {c : Config} (h : i.wf c = true) {r : RegIdx} (hr : r ∈ i.regs) :
    r.toNat < c.regCount := by
  simpa using List.all_eq_true.mp h r hr

/-! ## Updates that keep the invariant -/

theorem State.Inv.raise {s : State} (h : s.Inv) {r : StopReason} (hr : Status.faulted.admits r = true) :
    (s.raise r).Inv :=
  ⟨h.1, h.2, h.3, h.4, h.5, h.6, h.7, hr, h.9⟩

theorem State.Inv.haltWith {s : State} (h : s.Inv) {r : StopReason} (hr : Status.halted.admits r = true) :
    (s.haltWith r).Inv :=
  ⟨h.1, h.2, h.3, h.4, h.5, h.6, h.7, hr, h.9⟩

theorem State.Inv.setPc {s : State} (h : s.Inv) (v : Word) : (s.setPc v).Inv :=
  ⟨h.1, h.2, h.3, h.4, h.5, h.6, h.7, h.8, h.9⟩

theorem State.Inv.setFlag {s : State} (h : s.Inv) (b : Bool) : (s.setFlag b).Inv :=
  ⟨h.1, h.2, h.3, h.4, h.5, h.6, h.7, h.8, h.9⟩

theorem State.Inv.writeReg {s : State} (h : s.Inv) (r : RegIdx) (v : Word) : (s.writeReg r v).Inv :=
  ⟨h.1, by simpa using h.2, h.3, h.4, h.5, h.6, h.7, h.8, h.9⟩

theorem State.Inv.start {s : State} (h : s.Inv) (ht : s.terminal = false) : s.start.Inv :=
  ⟨h.1, h.2, h.3, h.4, h.5, h.6, h.7, by simp [h.stopReason_none ht, Status.admits], h.9⟩

theorem State.Inv.memWrite {s t : State} (h : s.Inv) {a : Nat} {v : Byte} (hw : s.memWrite a v = some t) : t.Inv := by
  obtain ⟨hlt, rfl⟩ := State.memWrite_eq_some hw
  exact ⟨h.1, h.2, h.3, h.4, h.5, Memory.wf_write h.6 a v, Memory.below_write h.7 hlt v, h.8, h.9⟩

end Sys2Proof.Machine
end

