-- ==== Sys2Proof/Machine/Assembler.lean ====
section
/-! DEFINITION. The assembler syntax of spec/30_encoding.md R80, read into instructions: one instruction for each
non-empty statement and no pseudo-instructions (R81). It is notation only: nothing of the machine depends on it. A text
that breaks a rule of R80 has no instructions (log 20). Texts are lists of characters. -/

namespace Sys2Proof.Machine.Asm

/-- What a statement is made of. -/
inductive Tok where
  | word (w : List Char) | comma | colon
  deriving DecidableEq, Repr

/-- Comments removed: from `#` to the end of the line. `inside` says whether we are in one. -/
def stripComments : Bool → List Char → List Char
  | _, [] => []
  | inside, c :: cs =>
    if c = '\n' then c :: stripComments false cs
    else if inside || c = '#' then stripComments true cs
    else c :: stripComments false cs

/-- The statements of a text: what stands between `;` and newline characters. -/
def statements : List Char → List (List Char)
  | [] => [[]]
  | c :: cs =>
    if c = ';' || c = '\n' then [] :: statements cs
    else
      match statements cs with
      | [] => [[c]]
      | s :: ss => (c :: s) :: ss

/-- A word token, unless no character has been gathered. -/
def flush (w : List Char) : List Tok := if w.isEmpty then [] else [.word w]

/-- The tokens of a statement; `w` is the word read so far. -/
def tokens (w : List Char) : List Char → List Tok
  | [] => flush w
  | c :: cs =>
    if c = ' ' || c = '\t' || c = '\r' then flush w ++ tokens [] cs
    else if c = ',' then flush w ++ .comma :: tokens [] cs
    else if c = ':' then flush w ++ .colon :: tokens [] cs
    else tokens (w ++ [c]) cs

/-- The mnemonics as R75 spells them. -/
def spelling : Mnemonic → List Char
  | .halt => ['H', 'A', 'L', 'T']
  | .load => ['L', 'O', 'A', 'D']
  | .move => ['M', 'O', 'V', 'E']
  | .add => ['A', 'D', 'D']
  | .sub => ['S', 'U', 'B']
  | .mul => ['M', 'U', 'L']
  | .xor => ['X', 'O', 'R']
  | .and => ['A', 'N', 'D']
  | .or => ['O', 'R']
  | .not => ['N', 'O', 'T']
  | .loadMem => ['L', 'O', 'A', 'D', '_', 'M', 'E', 'M']
  | .storeMem => ['S', 'T', 'O', 'R', 'E', '_', 'M', 'E', 'M']
  | .jmp => ['J', 'M', 'P']
  | .jz => ['J', 'Z']
  | .jnz => ['J', 'N', 'Z']
  | .cmp => ['C', 'M', 'P']
  | .push => ['P', 'U', 'S', 'H']
  | .pop => ['P', 'O', 'P']
  | .call => ['C', 'A', 'L', 'L']
  | .ret => ['R', 'E', 'T']
  | .random => ['R', 'A', 'N', 'D', 'O', 'M']
  | .shiftL => ['S', 'H', 'I', 'F', 'T', '_', 'L']
  | .shiftR => ['S', 'H', 'I', 'F', 'T', '_', 'R']
  | .rotL => ['R', 'O', 'T', '_', 'L']
  | .rotR => ['R', 'O', 'T', '_', 'R']
  | .mod => ['M', 'O', 'D']

/-- The mnemonic a word spells, in upper case. -/
def mnemonicOf (w : List Char) : Option Mnemonic := Mnemonic.all.find? fun n => spelling n == w

/-- The value of a digit in a base up to 16. -/
def digit (base : Nat) (c : Char) : Option Nat :=
  let n := c.toNat
  let v := if 48 ≤ n ∧ n ≤ 57 then n - 48
    else if 65 ≤ n ∧ n ≤ 70 then n - 55
    else if 97 ≤ n ∧ n ≤ 102 then n - 87
    else base
  if v < base then some v else none

/-- The digits of a number, onto the value read so far. -/
def digits (base : Nat) (acc : Nat) : List Char → Option Nat
  | [] => some acc
  | c :: cs =>
    match digit base c with
    | none => none
    | some d => digits base (acc * base + d) cs

/-- A decimal number, or a hexadecimal one after `0x`; at least one digit. -/
def number : List Char → Option Nat
  | [] => none
  | '0' :: 'x' :: [] => none
  | '0' :: 'x' :: c :: cs => digits 16 0 (c :: cs)
  | c :: cs => digits 10 0 (c :: cs)

/-- A register operand `R<n>`, `n` decimal and below REG_COUNT. -/
def register (c : Config) : List Char → Option RegIdx
  | 'R' :: d :: ds =>
    match digits 10 0 (d :: ds) with
    | none => none
    | some n => if n < c.regCount then some (BitVec.ofNat 8 n) else none
  | _ => none

/-- An immediate operand, `0 .. 0xFFFFFFFF`. -/
def immediate (w : List Char) : Option Word :=
  match number w with
  | none => none
  | some n => if n < 2 ^ 32 then some (BitVec.ofNat 32 n) else none

/-- The label table: each label with the address it stands for. -/
abbrev Labels := List (List Char × Nat)

/-- An address operand: a number in `0 .. 0xFFFF` or a label. -/
def address (ls : Labels) (w : List Char) : Option Addr :=
  match (number w).or (ls.lookup w) with
  | none => none
  | some n => if n < 2 ^ 16 then some (BitVec.ofNat 16 n) else none

/-- The leading `name:` labels of a statement, and the tokens after them. -/
def labels : List Tok → List (List Char) × List Tok
  | .word w :: .colon :: ts => (w :: (labels ts).1, (labels ts).2)
  | ts => ([], ts)

/-- The words of a comma-separated operand list. -/
def commaList : List Tok → Option (List (List Char))
  | [] => some []
  | [.word w] => some [w]
  | .word w :: .comma :: .word v :: ts => (commaList (.word v :: ts)).map (w :: ·)
  | _ => none

/-- A statement: its labels, and its mnemonic with its operand words if it is not empty. -/
structure Statement where
  labels : List (List Char)
  body : Option (Mnemonic × List (List Char))
  deriving DecidableEq, Repr

/-- A statement from its characters. -/
def statement (cs : List Char) : Option Statement :=
  let ts := tokens [] cs
  match labels ts with
  | (ls, []) => some ⟨ls, none⟩
  | (ls, .word w :: rest) =>
    match mnemonicOf w, commaList rest with
    | some n, some ops => some ⟨ls, some (n, ops)⟩
    | _, _ => none
  | _ => none

/-- The label table of a program whose first statement stands at address `a`; none where a name is given twice. -/
def layout (a : Nat) : List Statement → Option Labels
  | [] => some []
  | s :: ss =>
    let next := match s.body with
      | none => a
      | some (n, _) => a + n.format.length
    match layout next ss with
    | none => none
    | some tab =>
      let tab' := s.labels.map (fun l => (l, a)) ++ tab
      if (tab'.map Prod.fst).Nodup then some tab' else none

/-- Three register operands. -/
def three (c : Config) (mk : RegIdx → RegIdx → RegIdx → Instr) : List (List Char) → Option Instr
  | [d, x, y] =>
    match register c d, register c x, register c y with
    | some d, some x, some y => some (mk d x y)
    | _, _, _ => none
  | _ => none

/-- Two register operands. -/
def two (c : Config) (mk : RegIdx → RegIdx → Instr) : List (List Char) → Option Instr
  | [x, y] =>
    match register c x, register c y with
    | some x, some y => some (mk x y)
    | _, _ => none
  | _ => none

/-- One register operand. -/
def one (c : Config) (mk : RegIdx → Instr) : List (List Char) → Option Instr
  | [x] => (register c x).map mk
  | _ => none

/-- One address operand. -/
def target (ls : Labels) (mk : Addr → Instr) : List (List Char) → Option Instr
  | [x] => (address ls x).map mk
  | _ => none

/-- No operand. -/
def bare (i : Instr) : List (List Char) → Option Instr
  | [] => some i
  | _ => none

/-- The instruction of a mnemonic and its operand words, in the order of R75. -/
def instruction (c : Config) (ls : Labels) (n : Mnemonic) (ops : List (List Char)) : Option Instr :=
  match n with
  | .halt => bare .halt ops
  | .load =>
    match ops with
    | [d, v] =>
      match register c d, immediate v with
      | some d, some v => some (.load d v)
      | _, _ => none
    | _ => none
  | .move => two c .move ops
  | .add => three c .add ops
  | .sub => three c .sub ops
  | .mul => three c .mul ops
  | .xor => three c .xor ops
  | .and => three c .and ops
  | .or => three c .or ops
  | .not => two c .not ops
  | .loadMem => two c .loadMem ops
  | .storeMem => two c .storeMem ops
  | .jmp => target ls .jmp ops
  | .jz => target ls .jz ops
  | .jnz => target ls .jnz ops
  | .cmp => two c .cmp ops
  | .push => one c .push ops
  | .pop => one c .pop ops
  | .call => target ls .call ops
  | .ret => bare .ret ops
  | .random => one c .random ops
  | .shiftL => three c .shiftL ops
  | .shiftR => three c .shiftR ops
  | .rotL => three c .rotL ops
  | .rotR => three c .rotR ops
  | .mod => three c .mod ops

/-- The instructions of a list of statements, the labels known. -/
def instructions (c : Config) (ls : Labels) : List Statement → Option (List Instr)
  | [] => some []
  | s :: ss =>
    match s.body, instructions c ls ss with
    | none, some is => some is
    | some (n, ops), some is => (instruction c ls n ops).map (· :: is)
    | _, none => none

/-- The instructions of an assembler text, or none where the text breaks R80. -/
def parse (c : Config) (src : List Char) : Option (List Instr) :=
  match (statements (stripComments false src)).mapM statement with
  | none => none
  | some ss =>
    match layout 0 ss with
    | none => none
    | some ls => instructions c ls ss

/-- The bytes of an assembler text: its instructions encoded one after the other from address 0. -/
def assemble (c : Config) (src : List Char) : Option (List Byte) :=
  (parse c src).map fun is => (is.map (encode c.opcodeMap)).flatten

end Sys2Proof.Machine.Asm
end

