-- ==== Sys2Proof/Tests/Slice0.lean ====
section
/-! SUPPORT. Tests: the smoke test of WellFormed and of the configuration checks, decoding of words written out from
spec/30_encoding.md R71 and R75, one step per instruction with the expected values of spec/95_test_vectors.md (its number
is named), and for every statement with hypotheses a witness that meets them. -/

namespace Sys2Proof.Machine

/-! ## Well-formedness: an ill-formed term for each operand position, which the check refuses -/

theorem test_wf_accepts : Instr.wf Config.default (.add 15 0 15) = true := by decide
theorem test_wf_refuses_rd : Instr.wf Config.default (.add 16 0 0) = false := by decide
theorem test_wf_refuses_rs1 : Instr.wf Config.default (.mod 0 16 0) = false := by decide
theorem test_wf_refuses_rs2 : Instr.wf Config.default (.shiftL 0 0 255) = false := by decide
theorem test_wf_refuses_two_register_forms :
    Instr.wf Config.default (.move 16 0) = false ∧ Instr.wf Config.default (.not 0 16) = false ∧
    Instr.wf Config.default (.loadMem 0 16) = false ∧ Instr.wf Config.default (.storeMem 16 0) = false ∧
    Instr.wf Config.default (.cmp 0 16) = false := by decide
theorem test_wf_refuses_one_register_forms :
    Instr.wf Config.default (.load 16 0) = false ∧ Instr.wf Config.default (.push 16) = false ∧
    Instr.wf Config.default (.pop 16) = false ∧ Instr.wf Config.default (.random 16) = false := by decide

/-! ## Configurations: one that breaks each constraint of R7 -/

theorem test_config_default_valid : Config.default.valid = true := by decide
theorem test_config_memSize_zero : Config.valid { opcodeMap := .default, memSize := 0 } = false := by decide
theorem test_config_memSize_large : Config.valid { opcodeMap := .default, memSize := 2 ^ 32 - 7 } = false := by decide
theorem test_config_no_register : Config.valid { opcodeMap := .default, regCount := 0 } = false := by decide
theorem test_config_257_registers : Config.valid { opcodeMap := .default, regCount := 257 } = false := by decide
theorem test_config_code_too_large : Config.valid { opcodeMap := .default, codeCapacity := 1025 } = false := by decide
theorem test_config_opcode_twice :
    Config.valid { opcodeMap := { OpcodeMap.default with mod := 0x18 } } = false := by decide
theorem test_config_opcode_FF :
    Config.valid { opcodeMap := { OpcodeMap.default with mod := 0xFF } } = false := by decide
theorem test_config_limits : Config.valid { opcodeMap := .default, memSize := 1, regCount := 256, stackDepth := 0 } = true ∧
    Config.valid { opcodeMap := .default, memSize := 2 ^ 32 - 8 } = true := by decide
theorem test_host_input_outside : HostParams.valid .default ⟨1000, 25, 0, 0⟩ = false := by decide
theorem test_host_result_register : HostParams.valid .default ⟨1000, 24, 16, 0⟩ = false := by decide
theorem test_host_limits : HostParams.valid .default ⟨1000, 24, 15, 0⟩ = true := by decide
/-- R36: 9 bits for a depth of 256, 11 for a capacity of 1024. -/
theorem test_field_widths : Config.default.spBits = 9 ∧ Config.default.codeLenBits = 11 := by decide

/-! ## Decoding: every row of R75, the bytes written out from R71 -/

theorem test_decode_formats_N_R :
    decode .default [0x00] = .ok .halt [] ∧ decode .default [0x13] = .ok .ret [] ∧
    decode .default [0x10, 0x02] = .ok (.push 2) [] ∧ decode .default [0x11, 0x03] = .ok (.pop 3) [] ∧
    decode .default [0x14, 0x05] = .ok (.random 5) [] := by decide
theorem test_decode_format_RR :
    decode .default [0x02, 0x03, 0x04] = .ok (.move 3 4) [] ∧ decode .default [0x09, 0x01, 0x00] = .ok (.not 1 0) [] ∧
    decode .default [0x0A, 0x02, 0x01] = .ok (.loadMem 2 1) [] ∧
    decode .default [0x0B, 0x00, 0x01] = .ok (.storeMem 0 1) [] ∧
    decode .default [0x0F, 0x01, 0x03] = .ok (.cmp 1 3) [] := by decide
theorem test_decode_format_RRR_arithmetic :
    decode .default [0x03, 0x02, 0x00, 0x01] = .ok (.add 2 0 1) [] ∧
    decode .default [0x04, 0x02, 0x00, 0x01] = .ok (.sub 2 0 1) [] ∧
    decode .default [0x05, 0x02, 0x00, 0x01] = .ok (.mul 2 0 1) [] ∧
    decode .default [0x06, 0x02, 0x00, 0x01] = .ok (.xor 2 0 1) [] ∧
    decode .default [0x07, 0x02, 0x00, 0x01] = .ok (.and 2 0 1) [] ∧
    decode .default [0x08, 0x02, 0x00, 0x01] = .ok (.or 2 0 1) [] := by decide
theorem test_decode_format_RRR_shifts :
    decode .default [0x15, 0x02, 0x00, 0x01] = .ok (.shiftL 2 0 1) [] ∧
    decode .default [0x16, 0x02, 0x00, 0x01] = .ok (.shiftR 2 0 1) [] ∧
    decode .default [0x17, 0x02, 0x00, 0x01] = .ok (.rotL 2 0 1) [] ∧
    decode .default [0x18, 0x02, 0x00, 0x01] = .ok (.rotR 2 0 1) [] ∧
    decode .default [0x19, 0x02, 0x00, 0x01] = .ok (.mod 2 0 1) [] := by decide
theorem test_decode_formats_RI_A :
    decode .default [0x01, 0x00, 0xDE, 0xAD, 0xBE, 0xEF, 0x10] = .ok (.load 0 0xDEADBEEF) [0x10] ∧
    decode .default [0x0C, 0x03, 0xFC] = .ok (.jmp 0x03FC) [] ∧ decode .default [0x0D, 0x00, 0x20] = .ok (.jz 32) [] ∧
    decode .default [0x0E, 0x00, 0x0C] = .ok (.jnz 12) [] ∧
    decode .default [0x12, 0x00, 0x16] = .ok (.call 22) [] := by decide
theorem test_decode_rejects :
    decode .default [0x1A] = .unknownOpcode ∧ decode .default [0xFF, 0, 0, 0, 0, 0] = .unknownOpcode ∧
    decode .default [0x01, 0, 0, 0, 0] = .truncated ∧ decode .default [] = .noByte := by decide
theorem test_decodeTableWord : decodeTableWord 32 0x04030201 = some (.load 2 0x03040000) ∧ decodeTableWord 8 0x01 = some (.load 0 0) ∧
    decodeTableWord 8 0xFF = none ∧ decodeTableWord 24 0x34120C = some (.jmp 0x1234) := by decide

/-! ## One step: the vectors of spec/95_test_vectors.md -/

/-- A machine right after the load of `bs`, with the default parameters. -/
def loaded (bs : List Byte) : State :=
  { State.reset.pokeBytes 0 bs with codeLen := bs.length, programLoaded := true }

/-- What holds of the next state, if the step answers one. -/
def after (s : State) (p : State → Bool) : Bool :=
  match step s with
  | .next t => p t
  | _ => false

/-- A step that leaves the machine RUNNING at `pc` with `x[r] = v`. -/
def wrote (s : State) (pc : Word) (r : RegIdx) (v : Word) : Bool :=
  after s fun t => t.readReg r == v && t.pc == pc && t.status == .running && t.stopReason == .none

/-- A step that faults with the reason and leaves the registers alone. -/
def faulted (s : State) (reason : StopReason) : Bool :=
  after s fun t => t.status == .faulted && t.stopReason == reason && t.regs == s.regs && t.sp == s.sp && !t.running

/-- Section 2.2's start: `x[0] = u, x[1] = v`, the instruction `op 02 00 01`. -/
def alu (op : Byte) (u v : Word) : State := ((loaded [op, 2, 0, 1]).writeReg 0 u).writeReg 1 v

theorem test_V2_load : wrote (loaded [0x01, 0x0F, 0xFF, 0xFF, 0xFF, 0xFF]) 6 15 0xFFFFFFFF = true := by decide
theorem test_V3_move : wrote ((loaded [0x02, 0x03, 0x04]).writeReg 4 0xCAFEBABE) 3 3 0xCAFEBABE = true := by decide
theorem test_V5_random :
    (match stepWith 0xAB (loaded [0x14, 0x05]) with
     | .next t => t.readReg 5 == 0xAB && t.pc == 2 && t.draws == 1
     | _ => false) = true := by decide
theorem test_V7_random_zero_extends :
    (match stepWith 0xFF (loaded [0x14, 0x00]) with
     | .next t => t.readReg 0 == 0xFF
     | _ => false) = true := by decide
theorem test_V11_add : wrote (alu 0x03 0xFFFFFFFF 1) 4 2 0 = true := by decide
theorem test_V12_add_in_place :
    wrote ((loaded [0x03, 1, 1, 1]).writeReg 1 0x80000001) 4 1 0x00000002 = true := by decide
theorem test_V13_sub : wrote (alu 0x04 3 5) 4 2 0xFFFFFFFE = true := by decide
theorem test_V15_mul : wrote (alu 0x05 0x12345678 0x10) 4 2 0x23456780 = true := by decide
theorem test_V18_xor : wrote (alu 0x06 0xFF00FF00 0x0FF00FF0) 4 2 0xF0F0F0F0 = true := by decide
theorem test_V20_and : wrote (alu 0x07 0xFF00FF00 0x0FF00FF0) 4 2 0x0F000F00 = true := by decide
theorem test_V21_or : wrote (alu 0x08 0xFF00FF00 0x0FF00FF0) 4 2 0xFFF0FFF0 = true := by decide
theorem test_V22_not : wrote ((loaded [0x09, 1, 0]).writeReg 0 0xFF) 3 1 0xFFFFFF00 = true := by decide
theorem test_V24_shiftL : wrote (alu 0x15 1 31) 4 2 0x80000000 = true := by decide
theorem test_V25_shiftL_by_32 : wrote (alu 0x15 1 32) 4 2 1 = true := by decide
theorem test_V28_shiftR : wrote (alu 0x16 0x80000000 31) 4 2 1 = true := by decide
theorem test_V31_rotL : wrote (alu 0x17 0x80000001 4) 4 2 0x18 = true := by decide
theorem test_V34_rotL_by_36 : wrote (alu 0x17 0x12345678 36) 4 2 0x23456781 = true := by decide
theorem test_V35_rotR : wrote (alu 0x18 0x80000001 4) 4 2 0x18000000 = true := by decide
theorem test_V38_mod : wrote (alu 0x19 0xFFFFFFFF 10) 4 2 5 = true := by decide
theorem test_V41_mod_zero : faulted ((alu 0x19 17 0).writeReg 2 0x77) .divideOrModuloByZero = true := by decide
theorem test_V51_loadMem :
    wrote (((loaded [0x0A, 2, 1]).writeReg 1 0xFFFFFFFF).pokeBytes 1023 [0x80]) 3 2 0x80 = true := by decide
theorem test_V52_loadMem_in_place : wrote ((loaded [0x0A, 1, 1]).writeReg 1 10) 3 1 0 = true := by decide
theorem test_V53_storeMem :
    after (((loaded [0x0B, 0, 1]).writeReg 0 0x12345678).writeReg 1 1030)
      (fun t => t.memRead 6 == some 0x78 && t.pc == 3 && t.codeLen == 3) = true := by decide
theorem test_V55_storeMem_into_itself :
    after (((loaded [0x0B, 0, 1]).writeReg 0 0xAB).writeReg 1 1)
      (fun t => t.memRead 1 == some 0xAB && t.pc == 3 && t.codeLen == 3) = true := by decide
theorem test_V60_halt :
    after (loaded [0x00]) (fun t => t.status == .halted && t.stopReason == .halt && t.pc == 1 && !t.running) = true := by
  decide
theorem test_V62_jmp : after (loaded [0x0C, 0xFF, 0xFF]) (fun t => t.pc == 65535 && t.running) = true := by decide
theorem test_V63_jz_taken : after ((loaded [0x0D, 0, 0x20]).setFlag true) (fun t => t.pc == 32) = true := by decide
theorem test_V64_jz_not_taken : after (loaded [0x0D, 0, 0x20]) (fun t => t.pc == 3) = true := by decide
theorem test_V65_jnz_taken : after (loaded [0x0E, 0, 0x0C]) (fun t => t.pc == 12) = true := by decide
theorem test_V66_jnz_not_taken : after ((loaded [0x0E, 0, 0x0C]).setFlag true) (fun t => t.pc == 3) = true := by decide
theorem test_V67_cmp :
    after (((loaded [0x0F, 1, 3]).writeReg 1 7).writeReg 3 7) (fun t => t.flag && t.pc == 3) = true := by decide
theorem test_V68_cmp_unequal :
    after ((((loaded [0x0F, 1, 3]).writeReg 1 7).writeReg 3 8).setFlag true) (fun t => !t.flag) = true := by decide
theorem test_V70_push :
    after ((loaded [0x10, 2]).writeReg 2 0xFF) (fun t => t.sp == 1 && t.stk[0]? == some 0xFF && t.pc == 2) = true := by
  decide
theorem test_V71_push_full : faulted { loaded [0x10, 2] with sp := 256 } .stackOverflow = true := by decide
theorem test_V72_pop :
    after { loaded [0x11, 3] with sp := 2, stk := (State.reset.stk.set 0 5).set 1 0xFF }
      (fun t => t.readReg 3 == 0xFF && t.sp == 1 && t.stk[1]? == some 0xFF) = true := by decide
theorem test_V74_pop_empty : faulted ((loaded [0x11, 3]).writeReg 3 0x11) .stackUnderflow = true := by decide
theorem test_V75_call :
    after (loaded [0x12, 0, 0x10]) (fun t => t.stk[0]? == some 3 && t.sp == 1 && t.pc == 16) = true := by decide
theorem test_V76_call_full : faulted { loaded [0x12, 0, 0x10] with sp := 256 } .stackOverflow = true := by decide
theorem test_V77_ret :
    after { loaded [0x13] with sp := 1, stk := State.reset.stk.set 0 0x1234 } (fun t => t.pc == 0x1234 && t.sp == 0) = true := by
  decide
theorem test_V78_ret_empty : faulted (loaded [0x13]) .stackUnderflow = true := by decide
theorem test_V90_V91_unknown_opcode :
    faulted (loaded [0xFF]) .unknownOpcode = true ∧ faulted (loaded [0x1A]) .unknownOpcode = true := by decide
theorem test_V92_V94_invalid_register :
    faulted (loaded [0x03, 2, 0, 0x10]) .invalidRegister = true ∧
    faulted (loaded [0x01, 0x10, 0, 0, 0, 1]) .invalidRegister = true := by decide
theorem test_V95_empty_program :
    after (loaded []) (fun t => t.status == .halted && t.stopReason == .programCounterExhausted && t.pc == 0) = true := by
  decide
theorem test_V96_step_after_halt :
    after { loaded [0x00] with status := .halted, stopReason := .halt } (fun t => t.status == .halted && t.pc == 0) = true := by
  decide
theorem test_V98_V99_V100_abort :
    (abort (loaded [0x0C, 0, 0])).stopReason = .budgetExhausted ∧ (abort (loaded [0x0C, 0, 0])).status = .faulted ∧
    (abort ((loaded []).haltWith .halt)).status = .halted := by decide
theorem test_V101_operands_past_the_code : wrote (loaded [0x01, 0x00]) 6 0 0 = true := by decide
theorem test_V103_truncated :
    faulted { State.reset.pokeBytes 1020 [0x01] with codeLen := 1021, pc := 1020, status := .running }
      .truncatedInstruction = true := by decide
theorem test_V112_truncated_before_register :
    faulted { State.reset.pokeBytes 1020 [0x01, 0x63] with codeLen := 1022, pc := 1020, status := .running }
      .truncatedInstruction = true := by decide
/-- V79: with no stack every push faults. -/
theorem test_V79_no_stack :
    faulted { State.resetWith { opcodeMap := .default, stackDepth := 0 } with mem := [(0, 0x10)], codeLen := 2 }
      .stackOverflow = true := by decide
/-- V104, V105, on a capacity of 4: one byte too many changes nothing, the exact size is accepted. -/
theorem test_V104_V105_load :
    (match loadProgram [1, 2, 3, 4, 5] (State.resetWith { opcodeMap := .default, codeCapacity := 4 }) with
     | .next (.programTooLarge, t) => t.codeLen == 0 && t.mem == [] && !t.programLoaded
     | _ => false) = true ∧
    (match loadProgram [1, 2, 3, 4] (State.resetWith { opcodeMap := .default, codeCapacity := 4 }) with
     | .next (.ok, t) => t.codeLen == 4 && t.memRead 3 == some 4
     | _ => false) = true := by decide
/-- R33, R35: the codes the host reads. -/
theorem test_codes : readElement ((loaded []).raise .truncatedInstruction) .stopReason = some 8 ∧
    readElement ((loaded []).raise .truncatedInstruction) .status = some 3 ∧
    readElement (loaded []) (.reg 16) = none ∧ readElement (loaded []) (.mem 1024) = none := by decide
theorem test_withFetchWord :
    after (State.reset.withFetchWord 24 0x0C000C) (fun t => t.pc == 12 && t.running) = true ∧
    after ((State.reset.setPc 1020).withFetchWord 8 0x01) (fun t => t.pc == 6 && t.running) = true := by decide

/-! ## The assembler (R80): the source's own line, and labels and comments -/

theorem test_assemble_example :
    Asm.assemble .default "LOAD R0,5; LOAD R1,3; ADD R2,R0,R1; HALT".toList =
      some [0x01, 0, 0, 0, 0, 5, 0x01, 1, 0, 0, 0, 3, 0x03, 2, 0, 1, 0x00] := by decide
theorem test_assemble_labels :
    Asm.assemble .default "CALL sub # call it\nHALT\nsub: RET".toList = some [0x12, 0, 4, 0x00, 0x13] := by decide
theorem test_assemble_rejects :
    Asm.assemble .default "MOVE R16,R0".toList = none ∧ Asm.assemble .default "JMP 0x10000".toList = none ∧
    Asm.assemble .default "DIV R0,R1,R2".toList = none := by decide

/-! ## Witnesses: states and operands that meet the hypotheses of the statements -/

/-- A small machine: 64 bytes, 4 registers, a stack of 2, another opcode map. -/
def small : Config :=
  { memSize := 64, regCount := 4, stackDepth := 2
    opcodeMap := { OpcodeMap.default with halt := 0x19, mod := 0x00 } }

/-- A run on it, between steps: CALL 8 at 0, RET at 8, one entry on the stack. -/
def busy : State :=
  { State.resetWith small with
    regs := [0x12345613, 8, 0, 0x48], flag := true, stk := [7, 0], sp := 1
    mem := [(0, 0x12), (2, 8), (8, 0x13), (63, 0x10)], codeLen := 64, status := .running, programLoaded := true
    draws := 3 }

/-- The same with a full stack, and with an empty one. -/
def full : State := { busy with sp := 2 }
def empty : State := { busy with sp := 0 }

/-- Host parameters for it: an input region that overlaps the program, up to the last byte of memory. -/
def smallHost : HostParams := ⟨60, 4, 3, 5⟩

/-- Right after the creation of the small machine, and right after a load. -/
def fresh : State := State.resetWith small
def freshLoaded : State := { fresh with mem := [(0, 0x13)], codeLen := 1, programLoaded := true }

theorem busy_inv : busy.Inv := by constructor <;> decide
theorem full_inv : full.Inv := by constructor <;> decide
theorem empty_inv : empty.Inv := by constructor <;> decide
theorem fresh_inv : fresh.Inv := by constructor <;> decide
theorem freshLoaded_inv : freshLoaded.Inv := by constructor <;> decide

theorem witness_DecodeOfEncodeIsTheInstruction : small.opcodeMap.valid = true := by decide
theorem witness_EncodeOfDecodeIsTheBytes : decode small.opcodeMap [0x19, 5] = .ok .halt [5] := by decide
theorem witness_OpcodeByteAloneDecidesTheLength :
    small.opcodeMap.valid = true ∧
    (encode small.opcodeMap (.jmp 1)).head? = (encode small.opcodeMap (.jmp 2)).head? := by decide
theorem witness_UnassignedOpcodeBytesAreUnrecognized :
    (∀ n, OpcodeMap.default.byteOf n ≠ 0x1A) ∧ 0x1A ≤ (0x1A : Byte).toNat :=
  ⟨fun n => by cases n <;> decide, by decide⟩
theorem witness_DecoderFailsOnlyOnOpcodeOrMissingOperand :
    small.opcodeMap.valid = true ∧ [(0 : Byte), 0, 0, 0].length + 1 < Mnemonic.load.format.length ∧
    ¬ [(0 : Byte), 0, 0, 0, 0].length + 1 < Mnemonic.load.format.length := by decide
/-- A legal configuration, and one that breaks one constraint. -/
theorem witness_ConfigurationsThatBreakTheConstraintsAreRefused :
    (small.valid && smallHost.valid small) = true ∧ (small.valid && HostParams.valid small ⟨61, 4, 3, 5⟩) = false := by
  decide
theorem witness_ResetLeavesEveryElementAtItsTableValue : small.valid = true ∧ smallHost.valid small = true := by decide
theorem witness_InvariantHoldsAtReset : small.valid = true := by decide
theorem witness_EveryStepKeepsTheInvariant :
    busy.Inv ∧ (∃ t, step busy = .next t) ∧ ∃ t, stepWith 0x80 busy = .next t := ⟨busy_inv, ⟨_, rfl⟩, ⟨_, rfl⟩⟩
theorem witness_EveryStepAnswersANextState : busy.Inv := busy_inv
theorem witness_StepInATerminalStatusChangesNothing :
    (busy.haltWith .halt).status = .halted ∧ (busy.raise .stackOverflow).status = .faulted := by decide
theorem witness_FirstStepRunsAndLeavesReady :
    freshLoaded.status = .ready ∧ (∃ t, step freshLoaded = .next t) ∧ ∃ t, step busy = .next t ∧ t.status = .running :=
  ⟨rfl, ⟨_, rfl⟩, ⟨_, rfl, rfl⟩⟩
/-- At the boundary: pc equal to the code length, in both statuses. -/
theorem witness_PcAtOrPastTheCodeHaltsTheRun :
    (fresh.status = .ready ∧ fresh.codeLen ≤ fresh.pc.toNat) ∧
    (busy.setPc 64).status = .running ∧ (busy.setPc 64).codeLen ≤ (busy.setPc 64).pc.toNat := by decide
/-- The last code byte, and a fetch that ends there. -/
theorem witness_StepRunsTheDecodedInstruction :
    busy.status = .running ∧ busy.pc.toNat < busy.codeLen ∧ busy.fetched = .ok (.call 8) [0, 0, 0] ∧ busy.Inv :=
  ⟨rfl, by decide, by decide, busy_inv⟩
theorem witness_StepRunsTheInstructionInMemory :
    busy.Inv ∧ busy.status = .running ∧ busy.pc.toNat < busy.codeLen ∧
    busy.HoldsAt busy.pc.toNat (encode busy.cfg.opcodeMap (.call 8)) :=
  ⟨busy_inv, rfl, by decide, State.holdsAt_of_window (by decide)⟩
/-- A witness for each clause: terminal; end of code; unknown opcode; truncation at the last byte; a register out of range;
full stack; empty stack; zero divisor. -/
theorem witness_StepReportsTheFirstStopInOrder_engine :
    (busy.haltWith .halt).terminal = true ∧ (busy.setPc 64).codeLen ≤ (busy.setPc 64).pc.toNat ∧
    { busy with mem := [(0, 0x1A)] }.memRead 0 = some 0x1A ∧
    ((busy.setPc 63).memRead 63 = some (small.opcodeMap.byteOf .push) ∧
      64 ≤ (busy.setPc 63).pc.toNat + Mnemonic.push.format.length - 1) ∧
    { busy with mem := [(0, 0x10), (1, 4)] }.fetched = .ok (.push 4) [0, 0, 0, 0] ∧
    Instr.wf small (.push 4) = false := by decide
theorem witness_StepReportsTheFirstStopInOrder_body :
    ({ full with mem := [(0, 0x10), (1, 3)] }.fetched = .ok (.push 3) [0, 0, 0, 0] ∧ full.sp = full.cfg.stackDepth) ∧
    ({ empty with mem := [(0, 0x13)] }.fetched = .ok .ret [0, 0, 0, 0, 0] ∧ empty.sp = 0) ∧
    ({ busy with mem := [(2, 1), (3, 2)] }.fetched = .ok (.mod 0 1 2) [0, 0] ∧ busy.readReg 2 = 0#32) ∧
    Instr.wf small (.push 3) = true ∧ Instr.wf small (.mod 0 1 2) = true := by decide
theorem witness_FaultingStepWritesNothingElse :
    full.terminal = false ∧ ∃ t, step full = .next t ∧ t.status = .faulted := ⟨rfl, _, rfl, rfl⟩
theorem witness_StopReasonTellsWhatHappened :
    full.Inv ∧ full.terminal = false ∧ ∃ t, step full = .next t ∧ t.stopReason = .stackOverflow :=
  ⟨full_inv, rfl, _, rfl, rfl⟩
theorem witness_NoStepChangesTheCodeLength : ∃ t, step busy = .next t := ⟨_, rfl⟩
theorem witness_OnlyRandomReadsTheDraw : ∀ rd rest, busy.fetched ≠ .ok (.random rd) rest := by
  intro rd rest
  rw [show busy.fetched = .ok (.call 8) [0, 0, 0] by decide]
  nofun
theorem witness_OnlyCmpWritesAndOnlyJzJnzReadTheFlag :
    (∃ t, exec (.mod 0 1 3) busy = .next t) ∧ Instr.wf small (.cmp 0 3) = true := ⟨⟨_, rfl⟩, by decide⟩
/-- Below and at the depth, above and at zero. -/
theorem witness_OnlyStackInstructionsTouchTheStack :
    (∃ t, exec (.push 0) busy = .next t ∧ t.status = .running) ∧ (∃ t, exec (.call 8) full = .next t ∧ t.status = .faulted) ∧
    (∃ t, exec (.pop 0) busy = .next t ∧ t.status = .running) ∧ (∃ t, exec .ret empty = .next t ∧ t.status = .faulted) ∧
    busy.status = .running ∧ full.sp ≤ full.cfg.stackDepth :=
  ⟨⟨_, rfl, rfl⟩, ⟨_, rfl, rfl⟩, ⟨_, rfl, rfl⟩, ⟨_, rfl, rfl⟩, rfl, by decide⟩
theorem witness_OnlyStoreMemWritesMemory :
    busy.mem.wf = true ∧ (∃ t, exec (.storeMem 0 1) busy = .next t) ∧
    ∀ rs ra, Instr.storeMem 0 1 = .storeMem rs ra → 7 ≠ busy.dataAddr ra :=
  ⟨by decide, ⟨_, rfl⟩, by intro rs ra h; cases h; decide⟩
theorem witness_OnlyTheNamedRegisterIsWritten :
    (∃ t, exec (.add 0 1 2) busy = .next t) ∧ (Instr.add 0 1 2).destReg ≠ some 1 := ⟨⟨_, rfl⟩, by decide⟩
theorem witness_OnlyControlTransfersWriteThePc : ∃ t, exec (.random 0) busy = .next t := ⟨_, rfl⟩
/-- The operands of the instruction statements: the last register and the first one past it. -/
theorem witness_register_operands :
    busy.Inv ∧ Instr.wf busy.cfg (.load 3 0) = true ∧ Instr.wf busy.cfg (.load 4 0) = false ∧
    Instr.wf busy.cfg (.move 3 3) = true ∧ Instr.wf busy.cfg (.move 3 4) = false ∧
    Instr.wf busy.cfg (.random 3) = true ∧ Instr.wf busy.cfg (.random 4) = false :=
  ⟨busy_inv, by decide⟩
/-- ADD, SUB, MUL, XOR, AND, OR, the shifts, the rotates and MOD, both divisor clauses, and NOT. -/
theorem witness_alu_operands :
    busy.Inv ∧ Instr.wf busy.cfg (.add 3 3 3) = true ∧ Instr.wf busy.cfg (.add 3 3 4) = false ∧
    Instr.wf busy.cfg (.xor 0 1 2) = true ∧ Instr.wf busy.cfg (.not 3 0) = true ∧ Instr.wf busy.cfg (.not 4 0) = false ∧
    Instr.wf busy.cfg (.shiftL 0 0 0) = true ∧ Instr.wf busy.cfg (.rotL 0 0 0) = true ∧
    Instr.wf busy.cfg (.mod 3 0 1) = true ∧ busy.readReg 1 ≠ 0#32 ∧ busy.readReg 2 = 0#32 :=
  ⟨busy_inv, by decide⟩
/-- An amount register that stays as it is, and one whose low five bits agree. -/
theorem witness_RotLThenRotRIsTheIdentity :
    busy.Inv ∧ Instr.wf busy.cfg (.rotL 0 0 1) = true ∧ Instr.wf busy.cfg (.rotR 2 0 3) = true ∧
    ∃ t, exec (.rotL 0 0 1) busy = .next t ∧ (t.readReg 3).toNat % 32 = (busy.readReg 1).toNat % 32 :=
  ⟨busy_inv, by decide, by decide, _, rfl, by decide⟩
theorem witness_memory_operands :
    busy.Inv ∧ Instr.wf busy.cfg (.loadMem 2 1) = true ∧ Instr.wf busy.cfg (.loadMem 2 4) = false ∧
    Instr.wf busy.cfg (.storeMem 0 1) = true ∧ Instr.wf busy.cfg (.storeMem 4 1) = false :=
  ⟨busy_inv, by decide⟩
/-- 0x48 is 8 modulo 64. -/
theorem witness_StoreThenLoadReturnsTheLowByte :
    busy.Inv ∧ Instr.wf busy.cfg (.storeMem 0 1) = true ∧ Instr.wf busy.cfg (.loadMem 2 3) = true ∧
    (busy.readReg 3).toNat % busy.cfg.memSize = (busy.readReg 1).toNat % busy.cfg.memSize :=
  ⟨busy_inv, by decide, by decide, by decide⟩
/-- The low byte of x[0] is RET's opcode, and x[1] is the pc. -/
theorem witness_StoreIsSeenByTheNextFetch :
    (busy.setPc 8).Inv ∧ (busy.setPc 8).status = .running ∧ (busy.setPc 8).pc.toNat < (busy.setPc 8).codeLen ∧
    (busy.setPc 8).dataAddr 1 = (busy.setPc 8).pc.toNat ∧
    truncByte ((busy.setPc 8).readReg 0) = (busy.setPc 8).cfg.opcodeMap.byteOf Instr.ret.mnemonic ∧
    Instr.wf (busy.setPc 8).cfg (.storeMem 0 1) = true ∧ ∃ t, exec (.storeMem 0 1) (busy.setPc 8) = .next t :=
  ⟨busy_inv.setPc 8, rfl, by decide, by decide, by decide, by decide, _, rfl⟩
theorem witness_HaltEndsTheRun : ∃ t, exec .halt busy = .next t := ⟨_, rfl⟩
/-- The first target past the code. -/
theorem witness_JumpsSetThePcToTheAddress : busy.status = .running ∧ busy.codeLen ≤ (64 : Addr).toNat := by decide
/-- Equal registers and different ones. -/
theorem witness_BranchAfterCmpSeesTheNewFlag :
    Instr.wf busy.cfg (.cmp 1 3) = true ∧ busy.readReg 1 ≠ busy.readReg 3 ∧ busy.readReg 1 = busy.readReg 1 ∧
    Instr.wf busy.cfg (.cmp 1 4) = false := by decide
theorem witness_push_and_call_clauses :
    busy.Inv ∧ busy.sp < busy.cfg.stackDepth ∧ full.Inv ∧ full.sp = full.cfg.stackDepth ∧
    Instr.wf busy.cfg (.push 3) = true ∧ Instr.wf busy.cfg (.push 4) = false :=
  ⟨busy_inv, by decide, full_inv, by decide⟩
theorem witness_pop_and_ret_clauses :
    busy.Inv ∧ 0 < busy.sp ∧ empty.Inv ∧ empty.sp = 0 ∧
    Instr.wf busy.cfg (.pop 3) = true ∧ Instr.wf busy.cfg (.pop 4) = false :=
  ⟨busy_inv, by decide, empty_inv, by decide⟩
theorem witness_PushThenPopReturnsTheValue :
    busy.Inv ∧ Instr.wf busy.cfg (.move 2 0) = true ∧ busy.sp < busy.cfg.stackDepth := ⟨busy_inv, by decide⟩
theorem witness_CallThenRetComesBackAfterTheCall :
    busy.Inv ∧ busy.status = .running ∧ busy.pc.toNat < busy.codeLen ∧
    busy.HoldsAt busy.pc.toNat (encode busy.cfg.opcodeMap (.call 8)) ∧ (8 : Addr).toNat < busy.codeLen ∧
    busy.HoldsAt (8 : Addr).toNat (encode busy.cfg.opcodeMap .ret) ∧ busy.sp < busy.cfg.stackDepth :=
  ⟨busy_inv, rfl, by decide, State.holdsAt_of_window (by decide), by decide, State.holdsAt_of_window (by decide), by decide⟩
theorem witness_AbortFaultsARunThatHasNotEnded :
    fresh.status = .ready ∧ busy.status = .running ∧ (busy.haltWith .halt).status = .halted ∧
    (busy.raise .stackOverflow).status = .faulted := by decide
/-- The exact capacity, one byte more, and both ways of being too late. -/
theorem witness_LoadProgramCopiesOrLeavesUntouched :
    fresh.Inv ∧ fresh.status = .ready ∧ fresh.programLoaded = false ∧
    (List.replicate 64 (0x11 : Byte)).length ≤ fresh.cfg.codeCapacity ∧
    fresh.cfg.codeCapacity < (List.replicate 65 (0x11 : Byte)).length ∧ busy.status ≠ .ready ∧
    freshLoaded.programLoaded = true := ⟨fresh_inv, by decide⟩
theorem witness_LoadInputRefusesIllegalParameters :
    HostParams.valid freshLoaded.cfg ⟨61, 4, 3, 5⟩ = false ∧ HostParams.valid freshLoaded.cfg ⟨60, 4, 4, 5⟩ = false := by
  decide
theorem witness_LoadInputCopiesIntoTheInputRegion :
    freshLoaded.Inv ∧ smallHost.valid freshLoaded.cfg = true ∧ freshLoaded.status = .ready ∧
    freshLoaded.programLoaded = true ∧ [(1 : Byte), 2, 3, 4].length ≤ smallHost.inputCapacity ∧
    smallHost.inputCapacity < [(1 : Byte), 2, 3, 4, 5].length ∧ busy.status ≠ .ready ∧ fresh.programLoaded = false :=
  ⟨freshLoaded_inv, by decide⟩
/-- A program that reaches into the input region. -/
theorem witness_MemoryAtTheFirstStep :
    small.valid = true ∧ smallHost.valid small = true ∧ (List.replicate 62 (0x11 : Byte)).length ≤ small.codeCapacity ∧
    [(1 : Byte), 2, 3, 4].length ≤ smallHost.inputCapacity := by decide
theorem witness_HostTransactionsKeepTheInvariant :
    fresh.Inv ∧ (∃ a t, loadProgram [0x13] fresh = .next (a, t)) ∧ freshLoaded.Inv ∧
    smallHost.valid freshLoaded.cfg = true ∧ ∃ t, loadInput smallHost [1] freshLoaded = .next t :=
  ⟨fresh_inv, ⟨_, _, rfl⟩, freshLoaded_inv, by decide, ⟨_, rfl⟩⟩
theorem witness_BudgetedRunEndsInATerminalStatus : busy.Inv ∧ busy.terminal = false := ⟨busy_inv, by decide⟩
theorem witness_BootedRunEndsInATerminalStatus :
    small.valid = true ∧ smallHost.valid small = true ∧ [(0x13 : Byte)].length ≤ small.codeCapacity ∧
    ∀ buf, some [(1 : Byte)] = some buf → buf.length ≤ smallHost.inputCapacity :=
  ⟨by decide, by decide, by decide, by intro buf h; cases h; decide⟩

/-- A load, a store, a push and a call that faults, each from the busy machine. -/
theorem witness_StackAndMemoryAreApart :
    (∃ t, exec (.loadMem 2 1) busy = .next t) ∧ (∃ t, exec (.storeMem 0 1) busy = .next t) ∧
    (∃ t, exec (.push 0) busy = .next t ∧ t.status = .running) ∧ ∃ t, exec (.call 8) full = .next t ∧ t.status = .faulted :=
  ⟨⟨_, rfl⟩, ⟨_, rfl⟩, ⟨_, rfl, rfl⟩, ⟨_, rfl, rfl⟩⟩
/-- Another memory, the same in the bytes that matter: the CALL at 0, the byte at 8, the last byte. -/
def busyElsewhere : State := { busy with mem := [(0, 0x12), (2, 8), (8, 0x13), (9, 0x77), (63, 0x10)] }
theorem witness_OnlyFetchAndMemoryInstructionsReachMemory :
    (∃ t, exec (.add 0 1 2) busy = .next t) ∧ (∃ t, exec (.loadMem 2 1) busy = .next t) ∧
    busyElsewhere.memRead (busy.dataAddr 1) = busy.memRead (busy.dataAddr 1) ∧
    (busy.mem.wf = true ∧ ∃ t, exec (.storeMem 0 1) busy = .next t) ∧
    busy.Inv ∧ busy.pc.toNat < busy.codeLen ∧ busy.fetched = .ok (.call 8) [0, 0, 0] ∧
    ∀ k, k < Instr.length (.call 8) → busyElsewhere.memRead (busy.pc.toNat + k) = busy.memRead (busy.pc.toNat + k) :=
  ⟨⟨_, rfl⟩, ⟨_, rfl⟩, by decide, ⟨by decide, _, rfl⟩, busy_inv, by decide, by decide, by decide⟩
/-- A fetch that fails on its opcode byte, and one that runs past memory. -/
theorem witness_OnlyFetchAndMemoryInstructionsReachMemory_failing :
    { busy with mem := [(0, 0x1A)] }.fetched = .unknownOpcode ∧ (busy.setPc 63).fetched = .truncated ∧
    (busyElsewhere.setPc 63).memRead 63 = (busy.setPc 63).memRead 63 := by decide

end Sys2Proof.Machine
end

/-! PROOFS of the statements on the state (spec/10_state.md). Noninterference of one piece of the state: an instruction that
does not use a piece does the same to all the rest whatever that piece holds. Said once for every instruction
(`SideUpdate.commutes_of_unused`) and read off for the flag, the stack and memory; a piece that is not used is then also left
as it was. -/

namespace Sys2Proof.Machine

/-! ## The pieces and the instructions that use them -/

/-- The instructions that read or write the flag (spec/10_state.md R27). -/
def usesFlag : Instr → Bool
  | .jz _ | .jnz _ | .cmp _ _ => true
  | _ => false

/-- The instructions whose body reads or writes the stack (spec/10_state.md R30). -/
def usesStack : Instr → Bool
  | .push _ | .pop _ | .call _ | .ret => true
  | _ => false

/-- The instructions whose body reads or writes memory (spec/20_memory.md R51). -/
def usesMem : Instr → Bool
  | .loadMem _ _ | .storeMem _ _ => true
  | _ => false

/-- Another stack and depth in place of the state's. -/
def State.withStack (s : State) (k : List Word) (n : Nat) : State := { s with stk := k, sp := n }

/-- Another memory in place of the state's. -/
def State.withMem (s : State) (m : Memory) : State := { s with mem := m }

/-- An outcome with an update made to its next state. -/
def mapNext (f : State → State) : Result → Result
  | .next t => .next (f t)
  | .fault r => .fault r
  | .refused r => .refused r

/-- The instruction answers the same before and after the update, but for the update. -/
def Commutes (i : Instr) (f : State → State) : Prop := ∀ s, exec i (f s) = mapNext f (exec i s)

theorem Commutes.exec_next {i : Instr} {f : State → State} (h : Commutes i f) {s t : State} (ht : exec i s = .next t) :
    exec i (f s) = .next (f t) := by
  rw [h s, ht]
  rfl

/-- Where an update changes nothing before an instruction that commutes with it, it changes nothing after. -/
theorem Commutes.fixes_next {i : Instr} {f : State → State} (h : Commutes i f) {s t : State} (hs : f s = s)
    (ht : exec i s = .next t) : f t = t := by
  have h' := h.exec_next ht
  rw [hs, ht] at h'
  exact (Host.Outcome.next.inj h').symm

/-! ## What an update has to leave alone -/

/-- The update keeps the parameters, registers, `pc` and draw count, and their writes and those of the status commute
with it. -/
structure SideUpdate (f : State → State) : Prop where
  cfg : ∀ s, (f s).cfg = s.cfg
  regs : ∀ s, (f s).regs = s.regs
  pc : ∀ s, (f s).pc = s.pc
  draws : ∀ s, (f s).draws = s.draws
  writeReg : ∀ s r v, (f s).writeReg r v = f (s.writeReg r v)
  setPc : ∀ s v, (f s).setPc v = f (s.setPc v)
  setDraws : ∀ s n, { f s with draws := n } = f { s with draws := n }
  raise : ∀ s r, (f s).raise r = f (s.raise r)
  haltWith : ∀ s r, (f s).haltWith r = f (s.haltWith r)

/-- The update keeps the flag and commutes with its write. -/
structure KeepsFlag (f : State → State) : Prop where
  flag : ∀ s, (f s).flag = s.flag
  setFlag : ∀ s b, (f s).setFlag b = f (s.setFlag b)

/-- The update keeps the stack and commutes with its write. -/
structure KeepsStack (f : State → State) : Prop where
  stk : ∀ s, (f s).stk = s.stk
  sp : ∀ s, (f s).sp = s.sp
  withStack : ∀ s k n, (f s).withStack k n = f (s.withStack k n)

/-- The update keeps memory and commutes with its write. -/
structure KeepsMem (f : State → State) : Prop where
  mem : ∀ s, (f s).mem = s.mem
  withMem : ∀ s m, (f s).withMem m = f (s.withMem m)

/-! ## The shared operations commute with such an update -/

section
variable {f : State → State} (hf : SideUpdate f)
include hf

theorem SideUpdate.readReg (s : State) (r : RegIdx) : (f s).readReg r = s.readReg r := State.readReg_congr (hf.regs s) r

theorem SideUpdate.dataAddr (s : State) (ra : RegIdx) : (f s).dataAddr ra = s.dataAddr ra := by
  unfold State.dataAddr
  rw [hf.readReg, hf.cfg]

theorem SideUpdate.regValid (s : State) : (f s).regValid = s.regValid := by
  funext r
  unfold State.regValid
  rw [hf.cfg]

theorem SideUpdate.checkRegs {s : State} (rs : List RegIdx) {body body' : Result} (h : body' = mapNext f body) :
    (f s).checkRegs rs body' = mapNext f (s.checkRegs rs body) := by
  unfold State.checkRegs
  rw [hf.regValid, hf.raise, h]
  split <;> rfl

/-- A checked body that writes one register with a value the update does not change. -/
theorem SideUpdate.checkedWrite {s : State} (rs : List RegIdx) (rd : RegIdx) {v v' : Word} (h : v' = v) :
    (f s).checkRegs rs (.next ((f s).writeReg rd v')) = mapNext f (s.checkRegs rs (.next (s.writeReg rd v))) :=
  hf.checkRegs rs (by rw [h, hf.writeReg]; rfl)

theorem SideUpdate.unary (g : Word → Word) (rd rs : RegIdx) (s : State) :
    (f s).unary g rd rs = mapNext f (s.unary g rd rs) :=
  hf.checkedWrite _ rd (by rw [hf.readReg])

theorem SideUpdate.binary (g : Word → Word → Word) (rd rs1 rs2 : RegIdx) (s : State) :
    (f s).binary g rd rs1 rs2 = mapNext f (s.binary g rd rs1 rs2) :=
  hf.checkedWrite _ rd (by rw [hf.readReg, hf.readReg])

theorem SideUpdate.commutes_mod (rd rs1 rs2 : RegIdx) : Commutes (.mod rd rs1 rs2) f := fun s =>
  hf.checkRegs _ (by
    rw [hf.readReg, hf.readReg, hf.raise, hf.writeReg]
    split <;> rfl)

theorem SideUpdate.commutes_random (rd : RegIdx) : Commutes (.random rd) f := fun s =>
  hf.checkRegs _ (by rw [hf.draws, hf.writeReg, hf.setDraws]; rfl)

theorem SideUpdate.jumpIf (s : State) (taken : Bool) (a : Addr) : (f s).jumpIf taken a = f (s.jumpIf taken a) := by
  rw [State.jumpIf_eq, State.jumpIf_eq, hf.setPc, hf.pc]

/-! ### The flag -/

theorem SideUpdate.commutes_jz (hk : KeepsFlag f) (a : Addr) : Commutes (.jz a) f := fun s => by
  show Host.Outcome.next ((f s).jumpIf (f s).flag a) = .next (f (s.jumpIf s.flag a))
  rw [hk.flag, hf.jumpIf]

theorem SideUpdate.commutes_jnz (hk : KeepsFlag f) (a : Addr) : Commutes (.jnz a) f := fun s => by
  show Host.Outcome.next ((f s).jumpIf (!(f s).flag) a) = .next (f (s.jumpIf (!s.flag) a))
  rw [hk.flag, hf.jumpIf]

theorem SideUpdate.commutes_cmp (hk : KeepsFlag f) (rs1 rs2 : RegIdx) : Commutes (.cmp rs1 rs2) f := fun s =>
  hf.checkRegs _ (by rw [hf.readReg, hf.readReg, hk.setFlag]; rfl)

/-! ### The stack -/

theorem SideUpdate.pushThen (hk : KeepsStack f) {k : State → State} (hc : ∀ t, k (f t) = f (k t)) (s : State) (v : Word) :
    (f s).pushThen v k = mapNext f (s.pushThen v k) := by
  have hcap : (f s).sp = (f s).cfg.stackDepth ↔ s.sp = s.cfg.stackDepth := by rw [hk.sp, hf.cfg]
  by_cases h : s.sp = s.cfg.stackDepth
  · rw [State.pushThen_full h, State.pushThen_full (hcap.mpr h), hf.raise]
    rfl
  · rw [State.pushThen_room h, State.pushThen_room (mt hcap.mp h), hk.stk, hk.sp]
    exact congrArg Host.Outcome.next ((congrArg k (hk.withStack s _ _)).trans (hc _))

theorem SideUpdate.popThen (hk : KeepsStack f) {k : Word → State → State} (hc : ∀ v t, k v (f t) = f (k v t))
    (s : State) : (f s).popThen k = mapNext f (s.popThen k) := by
  by_cases h : s.sp = 0
  · rw [State.popThen_empty h, State.popThen_empty ((hk.sp s).trans h), hf.raise]
    rfl
  · rw [State.popThen_some h, State.popThen_some (by rwa [hk.sp]), hk.stk, hk.sp]
    exact congrArg Host.Outcome.next ((congrArg (k _) (hk.withStack s s.stk _)).trans (hc _ _))

theorem SideUpdate.commutes_push (hk : KeepsStack f) (rs : RegIdx) : Commutes (.push rs) f := fun s =>
  hf.checkRegs _ (by rw [hf.readReg, hf.pushThen hk (k := fun t => t) fun _ => rfl])

theorem SideUpdate.commutes_pop (hk : KeepsStack f) (rd : RegIdx) : Commutes (.pop rd) f := fun s =>
  hf.checkRegs _ (hf.popThen hk (fun v t => hf.writeReg t rd v) s)

theorem SideUpdate.commutes_call (hk : KeepsStack f) (a : Addr) : Commutes (.call a) f := fun s => by
  show (f s).pushThen (f s).pc _ = mapNext f (s.pushThen s.pc _)
  rw [hf.pc, hf.pushThen hk fun t => hf.setPc t (zextAddr a)]

theorem SideUpdate.commutes_ret (hk : KeepsStack f) : Commutes .ret f :=
  hf.popThen hk fun v t => hf.setPc t v

/-! ### Memory -/

theorem SideUpdate.memRead (hk : KeepsMem f) (s : State) (a : Nat) : (f s).memRead a = s.memRead a := by
  unfold State.memRead
  rw [hk.mem, hf.cfg]

theorem SideUpdate.memWrite (hk : KeepsMem f) (s : State) (a : Nat) (v : Byte) :
    (f s).memWrite a v = (s.memWrite a v).map f := by
  by_cases h : a < s.cfg.memSize
  · rw [State.memWrite_of_lt s h, State.memWrite_of_lt (f s) (by rwa [hf.cfg]), hk.mem]
    exact congrArg some (hk.withMem s (s.mem.write a v))
  · have hle : s.cfg.memSize ≤ a := not_lt.mp h
    rw [(State.memWrite_eq_none s a v).mpr hle, (State.memWrite_eq_none (f s) a v).mpr (by rwa [hf.cfg])]
    rfl

theorem SideUpdate.commutes_loadMem (hk : KeepsMem f) (rd ra : RegIdx) : Commutes (.loadMem rd ra) f := fun s =>
  hf.checkRegs _ (by
    rw [hf.dataAddr, hf.memRead hk]
    cases s.memRead (s.dataAddr ra) with
    | none => rfl
    | some b => exact congrArg Host.Outcome.next (hf.writeReg s rd (zextByte b)))

theorem SideUpdate.commutes_storeMem (hk : KeepsMem f) (rs ra : RegIdx) : Commutes (.storeMem rs ra) f := fun s =>
  hf.checkRegs _ (by
    rw [hf.dataAddr, hf.readReg, hf.memWrite hk]
    cases s.memWrite (s.dataAddr ra) (truncByte (s.readReg rs)) <;> rfl)

/-! ## Every instruction -/

/-- An update that keeps every piece the instruction uses commutes with the instruction. -/
theorem SideUpdate.commutes_of_unused {i : Instr} (hflag : usesFlag i = true → KeepsFlag f)
    (hstack : usesStack i = true → KeepsStack f) (hmem : usesMem i = true → KeepsMem f) : Commutes i f := by
  cases i with
  | halt => exact fun s => congrArg Host.Outcome.next (hf.haltWith s _)
  | load rd imm => exact fun s => hf.checkedWrite _ rd rfl
  | move rd rs => exact hf.unary (fun v => v) rd rs
  | not rd rs => exact hf.unary _ rd rs
  | add rd rs1 rs2 => exact hf.binary _ rd rs1 rs2
  | sub rd rs1 rs2 => exact hf.binary _ rd rs1 rs2
  | mul rd rs1 rs2 => exact hf.binary _ rd rs1 rs2
  | xor rd rs1 rs2 => exact hf.binary _ rd rs1 rs2
  | and rd rs1 rs2 => exact hf.binary _ rd rs1 rs2
  | or rd rs1 rs2 => exact hf.binary _ rd rs1 rs2
  | shiftL rd rs1 rs2 => exact hf.binary (fun v a => v <<< shiftAmount a) rd rs1 rs2
  | shiftR rd rs1 rs2 => exact hf.binary (fun v a => v >>> shiftAmount a) rd rs1 rs2
  | rotL rd rs1 rs2 => exact hf.binary (fun v a => rotateLeft v (shiftAmount a)) rd rs1 rs2
  | rotR rd rs1 rs2 => exact hf.binary (fun v a => rotateRight v (shiftAmount a)) rd rs1 rs2
  | mod rd rs1 rs2 => exact hf.commutes_mod rd rs1 rs2
  | random rd => exact hf.commutes_random rd
  | jmp a => exact fun s => congrArg Host.Outcome.next (hf.jumpIf s true a)
  | jz a => exact hf.commutes_jz (hflag rfl) a
  | jnz a => exact hf.commutes_jnz (hflag rfl) a
  | cmp rs1 rs2 => exact hf.commutes_cmp (hflag rfl) rs1 rs2
  | push rs => exact hf.commutes_push (hstack rfl) rs
  | pop rd => exact hf.commutes_pop (hstack rfl) rd
  | call a => exact hf.commutes_call (hstack rfl) a
  | ret => exact hf.commutes_ret (hstack rfl)
  | loadMem rd ra => exact hf.commutes_loadMem (hmem rfl) rd ra
  | storeMem rs ra => exact hf.commutes_storeMem (hmem rfl) rs ra

end

/-! ## The flag, the stack and memory

Each of the three updates writes its own fields of the record and no other, so it meets every condition but the one on its
own piece by computation; an instruction that does not use that piece does not ask for it. -/

theorem commutes_setFlag {i : Instr} (h : usesFlag i = false) (b : Bool) : Commutes i (·.setFlag b) := by
  refine SideUpdate.commutes_of_unused (by constructor <;> intros <;> rfl) (fun h' => ?_) (fun _ => ?_) (fun _ => ?_)
  · exact absurd h' (by simp [h])
  · constructor <;> intros <;> rfl
  · constructor <;> intros <;> rfl

theorem commutes_withStack {i : Instr} (h : usesStack i = false) (k : List Word) (n : Nat) :
    Commutes i (·.withStack k n) := by
  refine SideUpdate.commutes_of_unused (by constructor <;> intros <;> rfl) (fun _ => ?_) (fun h' => ?_) (fun _ => ?_)
  · constructor <;> intros <;> rfl
  · exact absurd h' (by simp [h])
  · constructor <;> intros <;> rfl

theorem commutes_withMem {i : Instr} (h : usesMem i = false) (m : Memory) : Commutes i (·.withMem m) := by
  refine SideUpdate.commutes_of_unused (by constructor <;> intros <;> rfl) (fun _ => ?_) (fun _ => ?_) (fun h' => ?_)
  · constructor <;> intros <;> rfl
  · constructor <;> intros <;> rfl
  · exact absurd h' (by simp [h])

theorem stack_eq_of_unused {i : Instr} (h : usesStack i = false) {s t : State} (ht : exec i s = .next t) :
    t.stk = s.stk ∧ t.sp = s.sp := by
  have hfix : t.withStack s.stk s.sp = t := (commutes_withStack h s.stk s.sp).fixes_next rfl ht
  exact ⟨(congrArg State.stk hfix).symm, (congrArg State.sp hfix).symm⟩

theorem mem_eq_of_unused {i : Instr} (h : usesMem i = false) {s t : State} (ht : exec i s = .next t) : t.mem = s.mem := by
  have hfix : t.withMem s.mem = t := (commutes_withMem h s.mem).fixes_next rfl ht
  exact (congrArg State.mem hfix).symm

theorem flag_eq_of_not_cmp {i : Instr} (h : ∀ a b, i ≠ .cmp a b) {s t : State} (ht : exec i s = .next t) :
    t.flag = s.flag := by
  have heff := exec_effect i s
  rw [ht] at heff
  cases heff with
  | wroteFlag rs1 rs2 hi => exact absurd hi (h rs1 rs2)
  | _ => rfl

/-! ## CMP -/

theorem exec_cmp_of_wf {s : State} {a b : RegIdx} (h : (Instr.cmp a b).wf s.cfg = true) :
    exec (.cmp a b) s = .next (s.setFlag (equalFlag (s.readReg a) (s.readReg b))) := State.checkRegs_of_all s h _

theorem exec_cmp_of_not_wf {s : State} {a b : RegIdx} (h : (Instr.cmp a b).wf s.cfg = false) :
    exec (.cmp a b) s = .next (s.raise .invalidRegister) := State.checkRegs_of_not_all s h _

/-- CMP does not read the flag: where it completes it writes over it, and where it faults it leaves it alone. -/
theorem exec_cmp_setFlag {s t : State} {a b : RegIdx} (c : Bool) (ht : exec (.cmp a b) s = .next t) :
    ∃ t', exec (.cmp a b) (s.setFlag c) = .next t' ∧ t = t'.setFlag t.flag := by
  cases hwf : (Instr.cmp a b).wf s.cfg with
  | true =>
    obtain rfl := Host.Outcome.next.inj ((exec_cmp_of_wf hwf).symm.trans ht)
    exact ⟨_, exec_cmp_of_wf hwf, rfl⟩
  | false =>
    obtain rfl := Host.Outcome.next.inj ((exec_cmp_of_not_wf hwf).symm.trans ht)
    exact ⟨_, exec_cmp_of_not_wf hwf, rfl⟩

/-- Every instruction but JZ and JNZ does the same with the other flag, but for the flag. -/
theorem exec_setFlag_of_not_branch {i : Instr} (hz : ∀ a, i ≠ .jz a) (hnz : ∀ a, i ≠ .jnz a) {s t : State} (c : Bool)
    (ht : exec i s = .next t) : ∃ t', exec i (s.setFlag c) = .next t' ∧ t = t'.setFlag t.flag := by
  by_cases hu : usesFlag i = true
  · cases i with
    | jz a => exact absurd rfl (hz a)
    | jnz a => exact absurd rfl (hnz a)
    | cmp a b => exact exec_cmp_setFlag c ht
    | _ => cases hu
  · exact ⟨t.setFlag c, (commutes_setFlag (by simpa using hu) c).exec_next ht, rfl⟩

theorem readElement_flag (s : State) : readElement s .flag = some (if s.flag = true then 1 else 0) := by
  show some s.flag.toNat = _
  cases s.flag <;> rfl

/-! ## The statements -/

/-- Settles O22: the writer by the effects of an instruction, the readers by noninterference of the flag. -/
theorem onlyCmpWritesAndOnlyJzJnzReadTheFlag : Obligations.OnlyCmpWritesAndOnlyJzJnzReadTheFlag := by
  refine ⟨rfl, fun i s t ht hcmp => flag_eq_of_not_cmp hcmp ht, fun a b s hwf => ?_,
    fun i s t c hz hnz ht => exec_setFlag_of_not_branch hz hnz c ht, readElement_flag⟩
  exact ⟨_, exec_cmp_of_wf hwf, decide_eq_true_iff⟩

/-- Settles O57: neither side uses the other's piece of the state. -/
theorem stackAndMemoryAreApart : Obligations.StackAndMemoryAreApart := by
  refine ⟨fun i s t k n hi ht => ?_, fun i s t m hi ht => ?_⟩
  · have hu : usesStack i = false := by
      obtain ⟨_, _, rfl⟩ | ⟨_, _, rfl⟩ := hi <;> rfl
    obtain ⟨hstk, hsp⟩ := stack_eq_of_unused hu ht
    exact ⟨hstk, hsp, (commutes_withStack hu k n).exec_next ht⟩
  · have hu : usesMem i = false := by
      obtain ⟨_, rfl⟩ | ⟨_, rfl⟩ | ⟨_, rfl⟩ | rfl := hi <;> rfl
    exact ⟨mem_eq_of_unused hu ht, (commutes_withMem hu m).exec_next ht⟩

end Sys2Proof.Machine

/-! PROOFS of the statements on memory (spec/20_memory.md). First the decoder against the encoder: what the operand bytes of
an opcode can decode to is said once (`OperandsRead`), so a decoded instruction stands before the bytes that are left over,
and a fetch that fails does so by its opcode byte and the number of bytes. Then memory: the one instruction that writes it, the
one byte that LOAD_MEM reads, and a fetch from a memory that agrees on the bytes it reads. -/

namespace Sys2Proof

/-! ## The decoder -/

/-- What the operand bytes of a mnemonic can decode to. -/
inductive OperandsRead (n : Mnemonic) (bs : List Byte) : Decoded → Prop
  | truncated (h : bs.length + 1 < n.format.length) : OperandsRead n bs .truncated
  | ok (i : Instr) (rest : List Byte) (hn : i.mnemonic = n) (h : bs = i.operandBytes ++ rest) : OperandsRead n bs (.ok i rest)

theorem operandsRead_r {n : Mnemonic} (hf : n.format = .r) {mk : RegIdx → Instr}
    (hmk : ∀ r, (mk r).mnemonic = n ∧ (mk r).operandBytes = [r]) (bs : List Byte) :
    OperandsRead n bs (operandsR mk bs) := by
  match bs with
  | [] => exact .truncated (by rw [hf]; simp [Format.length])
  | r :: rest =>
    obtain ⟨hn, hb⟩ := hmk r
    exact .ok _ rest hn (by rw [hb]; rfl)

theorem operandsRead_rr {n : Mnemonic} (hf : n.format = .rr) {mk : RegIdx → RegIdx → Instr}
    (hmk : ∀ r1 r2, (mk r1 r2).mnemonic = n ∧ (mk r1 r2).operandBytes = [r1, r2]) (bs : List Byte) :
    OperandsRead n bs (operandsRR mk bs) := by
  match bs with
  | [] | [_] => exact .truncated (by rw [hf]; simp [Format.length])
  | r1 :: r2 :: rest =>
    obtain ⟨hn, hb⟩ := hmk r1 r2
    exact .ok _ rest hn (by rw [hb]; rfl)

theorem operandsRead_rrr {n : Mnemonic} (hf : n.format = .rrr) {mk : RegIdx → RegIdx → RegIdx → Instr}
    (hmk : ∀ rd r1 r2, (mk rd r1 r2).mnemonic = n ∧ (mk rd r1 r2).operandBytes = [rd, r1, r2]) (bs : List Byte) :
    OperandsRead n bs (operandsRRR mk bs) := by
  match bs with
  | [] | [_] | [_, _] => exact .truncated (by rw [hf]; simp [Format.length])
  | rd :: r1 :: r2 :: rest =>
    obtain ⟨hn, hb⟩ := hmk rd r1 r2
    exact .ok _ rest hn (by rw [hb]; rfl)

theorem operandsRead_ri {n : Mnemonic} (hf : n.format = .ri) {mk : RegIdx → Word → Instr}
    (hmk : ∀ rd v, (mk rd v).mnemonic = n ∧ (mk rd v).operandBytes = rd :: be32Bytes v) (bs : List Byte) :
    OperandsRead n bs (operandsRI mk bs) := by
  match bs with
  | [] | [_] | [_, _] | [_, _, _] | [_, _, _, _] => exact .truncated (by rw [hf]; simp [Format.length])
  | rd :: b1 :: b2 :: b3 :: b4 :: rest =>
    obtain ⟨hn, hb⟩ := hmk rd (be32 b1 b2 b3 b4)
    exact .ok _ rest hn (by rw [hb, be32Bytes_be32]; rfl)

theorem operandsRead_a {n : Mnemonic} (hf : n.format = .a) {mk : Addr → Instr}
    (hmk : ∀ a, (mk a).mnemonic = n ∧ (mk a).operandBytes = be16Bytes a) (bs : List Byte) :
    OperandsRead n bs (operandsA mk bs) := by
  match bs with
  | [] | [_] => exact .truncated (by rw [hf]; simp [Format.length])
  | b1 :: b2 :: rest =>
    obtain ⟨hn, hb⟩ := hmk (be16 b1 b2)
    exact .ok _ rest hn (by rw [hb, be16Bytes_be16]; rfl)

/-- Everything the operand bytes of a recognized opcode can decode to. -/
theorem decodeOperands_read (n : Mnemonic) (bs : List Byte) : OperandsRead n bs (decodeOperands n bs) := by
  cases n with
  | halt => exact .ok .halt bs rfl rfl
  | ret => exact .ok .ret bs rfl rfl
  | load => refine operandsRead_ri rfl (fun _ _ => ⟨?_, ?_⟩) bs <;> rfl
  | push | pop | random => refine operandsRead_r rfl (fun _ => ⟨?_, ?_⟩) bs <;> rfl
  | jmp | jz | jnz | call => refine operandsRead_a rfl (fun _ => ⟨?_, ?_⟩) bs <;> rfl
  | move | not | loadMem | storeMem | cmp => refine operandsRead_rr rfl (fun _ _ => ⟨?_, ?_⟩) bs <;> rfl
  | add | sub | mul | xor | and | or | shiftL | shiftR | rotL | rotR | mod =>
    refine operandsRead_rrr rfl (fun _ _ _ => ⟨?_, ?_⟩) bs <;> rfl

/-- The operand bytes of an instruction decode to it, whatever bytes follow. -/
theorem decodeOperands_operandBytes (i : Instr) (rest : List Byte) :
    decodeOperands i.mnemonic (i.operandBytes ++ rest) = .ok i rest := by
  cases i with
  | load rd imm => exact congrArg (fun v => Decoded.ok (.load rd v) rest) (be32_extract imm)
  | jmp a => exact congrArg (fun a => Decoded.ok (.jmp a) rest) (be16_extract a)
  | jz a => exact congrArg (fun a => Decoded.ok (.jz a) rest) (be16_extract a)
  | jnz a => exact congrArg (fun a => Decoded.ok (.jnz a) rest) (be16_extract a)
  | call a => exact congrArg (fun a => Decoded.ok (.call a) rest) (be16_extract a)
  | _ => rfl

theorem length_encode (m : OpcodeMap) (i : Instr) : (encode m i).length = i.length := by
  cases i <;> rfl

theorem decode_cons_of_some {m : OpcodeMap} {op : Byte} {n : Mnemonic} (h : m.ofByte op = some n) (bs : List Byte) :
    decode m (op :: bs) = decodeOperands n bs := by
  rw [decode_cons, h]

theorem decode_cons_of_none {m : OpcodeMap} {op : Byte} (h : m.ofByte op = none) (bs : List Byte) :
    decode m (op :: bs) = .unknownOpcode := by
  rw [decode_cons, h]

/-- Under a valid map the bytes of an instruction decode to it, whatever bytes follow. -/
theorem decode_encode_append {m : OpcodeMap} (hm : m.valid = true) (i : Instr) (rest : List Byte) :
    decode m (encode m i ++ rest) = .ok i rest :=
  (decode_cons_of_some (OpcodeMap.ofByte_byteOf hm i.mnemonic) _).trans (decodeOperands_operandBytes i rest)

/-- A decoded instruction's bytes stand before the bytes that are left over. -/
theorem eq_encode_append_of_decode {m : OpcodeMap} {bs : List Byte} {i : Instr} {rest : List Byte}
    (h : decode m bs = .ok i rest) : bs = encode m i ++ rest := by
  cases bs with
  | nil => cases h
  | cons op bs =>
    cases hop : m.ofByte op with
    | none => cases (decode_cons_of_none hop bs).symm.trans h
    | some n =>
      have hread := decodeOperands_read n bs
      rw [← decode_cons_of_some hop bs, h] at hread
      cases hread with
      | ok _ _ hn hbs =>
        subst hn hbs
        rw [encode, OpcodeMap.byteOf_of_ofByte hop]
        rfl

/-- The decoder fails on the opcode byte exactly where the map does not assign it. -/
theorem decode_cons_eq_unknownOpcode_iff (m : OpcodeMap) (op : Byte) (bs : List Byte) :
    decode m (op :: bs) = .unknownOpcode ↔ m.ofByte op = none := by
  refine ⟨fun h => ?_, fun h => decode_cons_of_none h bs⟩
  cases hop : m.ofByte op with
  | none => rfl
  | some n =>
    have hread := decodeOperands_read n bs
    rw [← decode_cons_of_some hop bs, h] at hread
    cases hread

/-- The decoder misses an operand byte exactly where fewer bytes follow than the opcode asks for. -/
theorem decode_cons_eq_truncated_iff (m : OpcodeMap) (op : Byte) (bs : List Byte) :
    decode m (op :: bs) = .truncated ↔ ∃ n, m.ofByte op = some n ∧ bs.length + 1 < n.format.length := by
  cases hop : m.ofByte op with
  | none => simp [decode_cons_of_none hop]
  | some n =>
    rw [decode_cons_of_some hop]
    have hread := decodeOperands_read n bs
    generalize decodeOperands n bs = d at hread
    cases hread with
    | truncated h => exact ⟨fun _ => ⟨n, rfl, h⟩, fun _ => rfl⟩
    | ok i rest hn h =>
      subst hn h
      have hlen : i.operandBytes.length + 1 = i.mnemonic.format.length := length_encode m i
      refine ⟨nofun, fun ⟨n', hn', hlt⟩ => ?_⟩
      cases hn'
      rw [List.length_append] at hlt
      omega

/-- The opcode byte and the number of bytes alone decide a failure: with the operand bytes changed it is the same. -/
theorem decode_cons_eq_of_failed {m : OpcodeMap} {op : Byte} {bs bs' : List Byte} (hlen : bs'.length = bs.length) {d : Decoded}
    (hd : d = .unknownOpcode ∨ d = .truncated) (h : decode m (op :: bs) = d) : decode m (op :: bs') = d := by
  obtain rfl | rfl := hd
  · rwa [decode_cons_eq_unknownOpcode_iff] at h ⊢
  · rwa [decode_cons_eq_truncated_iff, hlen, ← decode_cons_eq_truncated_iff]

end Sys2Proof

namespace Sys2Proof.Machine

/-! ## Instructions and memory -/

/-- Only STORE_MEM writes memory. -/
theorem mem_eq_of_not_storeMem {i : Instr} (h : ∀ rs ra, i ≠ .storeMem rs ra) {s t : State} (ht : exec i s = .next t) :
    t.mem = s.mem := by
  have heff := exec_effect i s
  rw [ht] at heff
  cases heff with
  | stored rs ra hi => exact absurd hi (h rs ra)
  | _ => rfl

/-- STORE_MEM leaves every byte but the one at its data address. -/
theorem memRead_eq_of_storeMem {s t : State} {rs ra : RegIdx} (hwf : s.mem.wf = true)
    (ht : exec (.storeMem rs ra) s = .next t) {a : Nat} (ha : a ≠ s.dataAddr ra) : t.memRead a = s.memRead a := by
  have heff := exec_effect (.storeMem rs ra) s
  rw [ht] at heff
  cases heff with
  | stored rs' ra' hi =>
    cases hi
    unfold State.memRead
    rw [Memory.read_write hwf, if_neg ha.symm]
  | _ => rfl

theorem sideUpdate_withMem (m : Memory) : SideUpdate (·.withMem m) := by
  constructor <;> intros <;> rfl

/-- LOAD_MEM reads no byte of memory but the one at its data address. -/
theorem exec_loadMem_withMem {s : State} {m : Memory} (rd : RegIdx) {ra : RegIdx}
    (h : (s.withMem m).memRead (s.dataAddr ra) = s.memRead (s.dataAddr ra)) :
    exec (.loadMem rd ra) (s.withMem m) = mapNext (·.withMem m) (exec (.loadMem rd ra) s) :=
  (sideUpdate_withMem m).checkRegs _ (by
    rw [(sideUpdate_withMem m).dataAddr, h]
    cases s.memRead (s.dataAddr ra) <;> rfl)

/-! ## The fetch -/

/-- A memory that agrees on the first bytes of the fetch window gives a window as long with the same first bytes. -/
theorem State.window_withMem {s : State} {m : Memory} {n a : Nat} {bs rest : List Byte} (hw : s.window n a = bs ++ rest)
    (h : ∀ k, k < bs.length → (s.withMem m).memRead (a + k) = s.memRead (a + k)) :
    ∃ rest', (s.withMem m).window n a = bs ++ rest' ∧ rest'.length = rest.length := by
  have hlen : ((s.withMem m).window n a).length = (s.window n a).length := by
    rw [State.window_length, State.window_length]
    rfl
  have htake : ((s.withMem m).window n a).take bs.length = bs := by
    calc ((s.withMem m).window n a).take bs.length
        = (s.window n a).take bs.length := by
          refine List.ext_getElem? fun k => ?_
          simp only [List.getElem?_take, State.window_getElem?]
          by_cases hk : k < bs.length
          · rw [h k hk]
          · rw [if_neg hk, if_neg hk]
      _ = bs := by rw [hw, List.take_left]
  refine ⟨((s.withMem m).window n a).drop bs.length, ?_, ?_⟩
  · conv_lhs => rw [← List.take_append_drop bs.length ((s.withMem m).window n a), htake]
  · rw [List.length_drop, hlen, hw, List.length_append, Nat.add_sub_cancel_left]

/-- A memory that agrees on the bytes of the instruction fetched gives that instruction. -/
theorem State.fetched_withMem_ok {s : State} {m : Memory} (hm : s.cfg.opcodeMap.valid = true) {i : Instr} {rest : List Byte}
    (hf : s.fetched = .ok i rest)
    (h : ∀ k, k < i.length → (s.withMem m).memRead (s.pc.toNat + k) = s.memRead (s.pc.toNat + k)) :
    ∃ rest', (s.withMem m).fetched = .ok i rest' := by
  have hw : s.window maxLength s.pc.toNat = encode s.cfg.opcodeMap i ++ rest := eq_encode_append_of_decode hf
  obtain ⟨rest', hw', -⟩ := State.window_withMem hw (by rwa [length_encode])
  exact ⟨rest', (congrArg (decode s.cfg.opcodeMap) hw').trans (decode_encode_append hm i rest')⟩

/-- A memory that agrees on the opcode byte of a fetch that fails makes it fail the same way. -/
theorem State.fetched_withMem_failed {s : State} {m : Memory} (h : (s.withMem m).memRead s.pc.toNat = s.memRead s.pc.toNat)
    {d : Decoded} (hd : d = .unknownOpcode ∨ d = .truncated) (hf : s.fetched = d) : (s.withMem m).fetched = d := by
  cases hw : s.window maxLength s.pc.toNat with
  | nil =>
    rw [State.fetched, hw] at hf
    subst hf
    rcases hd with hd | hd <;> cases hd
  | cons op bs =>
    obtain ⟨bs', hw', hlen⟩ := State.window_withMem (m := m) (bs := [op]) hw fun k hk => by
      obtain rfl : k = 0 := Nat.lt_one_iff.mp hk
      exact h
    rw [State.fetched, hw] at hf
    exact (congrArg (decode s.cfg.opcodeMap) hw').trans (decode_cons_eq_of_failed hlen hd hf)

/-! ## The statement -/

/-- Settles O58: the instructions by their effects and the noninterference of memory, the fetch by the window it decodes. -/
theorem onlyFetchAndMemoryInstructionsReachMemory : Obligations.OnlyFetchAndMemoryInstructionsReachMemory := by
  intro s m
  refine ⟨fun i t hload hstore ht => ?_, fun rd ra t h ht => ?_, fun rs ra t hwf ht a ha => memRead_eq_of_storeMem hwf ht ha,
    fun hinv _ => ⟨fun i rest hf h => ?_, fun h => ⟨?_, ?_⟩⟩⟩
  · have hu : usesMem i = false := by
      cases i with
      | loadMem rd ra => exact absurd rfl (hload rd ra)
      | storeMem rs ra => exact absurd rfl (hstore rs ra)
      | _ => rfl
    exact ⟨mem_eq_of_not_storeMem hstore ht, (commutes_withMem hu m).exec_next ht⟩
  · exact ⟨mem_eq_of_not_storeMem (by nofun) ht, (exec_loadMem_withMem rd h).trans (congrArg _ ht)⟩
  · obtain ⟨-, -, -, -, -, hmap⟩ := (valid_iff _).mp hinv.cfg_valid
    exact State.fetched_withMem_ok hmap hf h
  · exact State.fetched_withMem_failed h (.inl rfl)
  · exact State.fetched_withMem_failed h (.inr rfl)

end Sys2Proof.Machine

/-! PROOFS of the statements on the engine (spec/40_engine.md): a step once the run has ended. -/

namespace Sys2Proof.Machine

/-- R101: in a terminal status a step is a no-op, whatever the bodies of the instructions. -/
theorem engineStep_of_terminal (run : Instr → State → Result) {s : State} (h : s.terminal = true) :
    engineStep run s = .next s :=
  if_pos h

/-- Settles O12: HALTED and FAULTED are the terminal statuses, and both steps are engine steps. -/
theorem stepInATerminalStatusChangesNothing : Obligations.StepInATerminalStatusChangesNothing := by
  intro rand s hs
  have ht : s.terminal = true := (State.terminal_eq_true s).mpr hs
  exact ⟨engineStep_of_terminal exec ht, engineStep_of_terminal (execWith rand) ht⟩

end Sys2Proof.Machine

/-! PROOFS of the statements on the encoding (spec/30_encoding.md), from the rules of the decoder and the encoder above. -/

namespace Sys2Proof

/-! ## Lengths and opcode bytes -/

/-- The length column of R71. -/
theorem Format.length_mem (f : Format) : f.length ∈ [1, 2, 3, 4, 6] := by
  cases f <;> decide

theorem Format.length_pos (f : Format) : 1 ≤ f.length := by
  cases f <;> decide

/-- R78: no instruction is longer than the fetch window. -/
theorem Format.length_le (f : Format) : f.length ≤ maxLength := by
  cases f <;> decide

theorem OpcodeMap.mem_bytes_iff (m : OpcodeMap) (b : Byte) : b ∈ m.bytes ↔ ∃ n, m.byteOf n = b := by
  simp [OpcodeMap.bytes_eq_map, Mnemonic.mem_all]

/-- R77: a byte is unrecognized where no mnemonic has it. -/
theorem OpcodeMap.ofByte_eq_none_iff_byteOf (m : OpcodeMap) (b : Byte) : m.ofByte b = none ↔ ∀ n, m.byteOf n ≠ b := by
  rw [OpcodeMap.ofByte_eq_none, OpcodeMap.mem_bytes_iff, not_exists]

/-- R75: the default map numbers the mnemonics from 0 on, in their order. -/
theorem OpcodeMap.default_bytes_toNat : OpcodeMap.default.bytes.map BitVec.toNat = List.range 26 := by
  decide

theorem OpcodeMap.default_ofByte_eq_none_iff (b : Byte) : OpcodeMap.default.ofByte b = none ↔ 0x1A ≤ b.toNat := by
  have hmem : b ∈ OpcodeMap.default.bytes ↔ b.toNat < 26 := by
    rw [← List.mem_range, ← OpcodeMap.default_bytes_toNat, List.mem_map_of_injective fun _ _ => BitVec.eq_of_toNat_eq]
  rw [OpcodeMap.ofByte_eq_none, hmem, not_lt]

/-! ## The statements -/

/-- Settles O1: the opcode byte is read back because the map is valid, the operand bytes because each format is. -/
theorem decodeOfEncodeIsTheInstruction : Obligations.DecodeOfEncodeIsTheInstruction :=
  fun _ i rest hm => decode_encode_append hm i rest

/-- Settles O2: what an opcode's operand bytes can decode to is an instruction with those operand bytes. -/
theorem encodeOfDecodeIsTheBytes : Obligations.EncodeOfDecodeIsTheBytes :=
  fun _ _ _ _ h => eq_encode_append_of_decode h

/-- Settles O3: the length is the format's, and a valid map gives different mnemonics different bytes. -/
theorem opcodeByteAloneDecidesTheLength : Obligations.OpcodeByteAloneDecidesTheLength := by
  intro m i j hm
  refine ⟨length_encode m i, i.mnemonic.format.length_mem, rfl, fun h => ?_⟩
  have hn : i.mnemonic = j.mnemonic := OpcodeMap.byteOf_injective hm (Option.some.inj h)
  exact ⟨hn, congrArg (fun n => n.format.length) hn⟩

/-- Settles O4: the decoder fails on the opcode exactly where the map does not read it. -/
theorem unassignedOpcodeBytesAreUnrecognized : Obligations.UnassignedOpcodeBytesAreUnrecognized :=
  ⟨fun m b bs => (decode_cons_eq_unknownOpcode_iff m b bs).trans (m.ofByte_eq_none_iff_byteOf b),
    fun b bs => (decode_cons_eq_unknownOpcode_iff _ b bs).trans (OpcodeMap.default_ofByte_eq_none_iff b)⟩

/-- Settles O5: an assigned opcode byte is read, so only the operand bytes are left to fail on. -/
theorem decoderFailsOnlyOnOpcodeOrMissingOperand : Obligations.DecoderFailsOnlyOnOpcodeOrMissingOperand := by
  intro m n bs hm
  have hop : m.ofByte (m.byteOf n) = some n := OpcodeMap.ofByte_byteOf hm n
  refine ⟨?_, ?_, ?_⟩
  · simp [decode_cons_eq_truncated_iff, hop]
  · simp [decode_cons_eq_unknownOpcode_iff, hop]
  · rw [decode_cons_of_some hop]
    exact decodeOperands_ne_noByte n bs

/-- Settles O6: the decoder computes on each of the six words. -/
theorem wordsOfTheSpecDecode : Obligations.WordsOfTheSpecDecode := by
  unfold Obligations.WordsOfTheSpecDecode
  decide

end Sys2Proof

/-! PROOFS of the statements over every instruction and every step (spec/10_state.md, spec/40_engine.md sections 1 to 3). Each
is a case split over the effects of an instruction (`Effect`), lifted to the step by the engine's cases (`engineStep_cases`). -/

namespace Sys2Proof.Machine

/-! ## What each effect keeps -/

theorem effect_of_exec {i : Instr} {s t : State} (h : exec i s = .next t) : Effect i s (.next t) :=
  h ▸ exec_effect i s

theorem effect_of_execWith {rand : Byte} {i : Instr} {s t : State} (h : execWith rand i s = .next t) : Effect i s (.next t) :=
  h ▸ execWith_effect rand i s

theorem State.Inv.setDraws {s : State} (h : s.Inv) (n : Nat) : { s with draws := n }.Inv :=
  ⟨h.1, h.2, h.3, h.4, h.5, h.6, h.7, h.8, h.9⟩

/-- A push below the depth keeps the invariant. -/
theorem State.Inv.push {s : State} (h : s.Inv) (hsp : s.sp ≠ s.cfg.stackDepth) (v : Word) :
    { s with stk := s.stk.set s.sp v, sp := s.sp + 1 }.Inv :=
  ⟨h.1, h.2, by simpa using h.3, Nat.lt_of_le_of_ne h.4 hsp, h.5, h.6, h.7, h.8, h.9⟩

/-- A pop keeps the invariant. -/
theorem State.Inv.pop {s : State} (h : s.Inv) : { s with sp := s.sp - 1 }.Inv :=
  ⟨h.1, h.2, h.3, (Nat.sub_le _ _).trans h.4, h.5, h.6, h.7, h.8, h.9⟩

/-- Every instruction keeps the invariant. -/
theorem State.Inv.of_effect {i : Instr} {s t : State} (h : s.Inv) (he : Effect i s (.next t)) : t.Inv := by
  cases he with
  | invalidRegister | stackOverflow | stackUnderflow | moduloByZero => exact h.raise rfl
  | halted => exact h.haltWith rfl
  | wroteReg rd v n => exact (h.writeReg rd v).setDraws n
  | wroteFlag => exact h.setFlag _
  | jumped v => exact h.setPc v
  | stored _ _ _ _ hlt => exact h.memWrite (State.memWrite_of_lt s hlt _)
  | pushed rs _ _ hsp => exact h.push hsp _
  | called a _ hsp => exact (h.push hsp _).setPc _
  | popped rd => exact h.pop.writeReg rd _
  | returned => exact h.pop.setPc _

/-- From the invariant every instruction answers a next state: a data address is inside memory. -/
theorem Effect.exists_next {i : Instr} {s : State} {r : Result} (he : Effect i s r) (h : s.Inv) : ∃ t, r = .next t := by
  cases he with
  | outside ra hle => exact absurd (h.dataAddr_lt ra) hle.not_gt
  | _ => exact ⟨_, rfl⟩

/-- No instruction changes the parameters, the code length or the load record. -/
theorem Effect.fixed_fields {i : Instr} {s t : State} (he : Effect i s (.next t)) :
    t.codeLen = s.codeLen ∧ t.cfg = s.cfg ∧ t.programLoaded = s.programLoaded := by
  cases he <;> exact ⟨rfl, rfl, rfl⟩

/-- How an instruction can end: it leaves status and stop reason, or it is HALT, or it takes one of its faults and writes
nothing else. -/
theorem Effect.stop_cases {i : Instr} {s t : State} (he : Effect i s (.next t)) :
    (t.status = s.status ∧ t.stopReason = s.stopReason) ∨
    (i = .halt ∧ t = s.haltWith .halt) ∨
    (i.wf s.cfg = false ∧ t = s.raise .invalidRegister) ∨
    (((∃ rs, i = .push rs) ∨ ∃ a, i = .call a) ∧ s.sp = s.cfg.stackDepth ∧ t = s.raise .stackOverflow) ∨
    (((∃ rd, i = .pop rd) ∨ i = .ret) ∧ s.sp = 0 ∧ t = s.raise .stackUnderflow) ∨
    ((∃ rd rs1 rs2, i = .mod rd rs1 rs2 ∧ s.readReg rs2 = 0#32) ∧ t = s.raise .divideOrModuloByZero) := by
  cases he with
  | halted hi => exact .inr (.inl ⟨hi, rfl⟩)
  | invalidRegister h => exact .inr (.inr (.inl ⟨h, rfl⟩))
  | stackOverflow hi _ h => exact .inr (.inr (.inr (.inl ⟨hi, h, rfl⟩)))
  | stackUnderflow hi _ h => exact .inr (.inr (.inr (.inr (.inl ⟨hi, h, rfl⟩))))
  | moduloByZero rd rs1 rs2 hi _ h => exact .inr (.inr (.inr (.inr (.inr ⟨⟨rd, rs1, rs2, hi, h⟩, rfl⟩))))
  | _ => exact .inl ⟨rfl, rfl⟩

theorem Effect.status_cases {i : Instr} {s t : State} (he : Effect i s (.next t)) :
    (t.status = s.status ∧ t.stopReason = s.stopReason) ∨ (t.status = .halted ∧ i = .halt) ∨ t.status = .faulted := by
  rcases he.stop_cases with h | ⟨hi, rfl⟩ | ⟨-, rfl⟩ | ⟨-, -, rfl⟩ | ⟨-, -, rfl⟩ | ⟨-, rfl⟩
  · exact .inl h
  · exact .inr (.inl ⟨rfl, hi⟩)
  all_goals exact .inr (.inr rfl)

/-- R109: an instruction that faults raises the fault and does nothing else. -/
theorem Effect.eq_raise_of_faulted {i : Instr} {s t : State} (he : Effect i s (.next t)) (hs : s.status ≠ .faulted)
    (ht : t.status = .faulted) : t = s.raise t.stopReason := by
  rcases he.stop_cases with ⟨h, -⟩ | ⟨-, rfl⟩ | ⟨-, rfl⟩ | ⟨-, -, rfl⟩ | ⟨-, -, rfl⟩ | ⟨-, rfl⟩
  · exact absurd (h.symm.trans ht) hs
  · cases ht
  all_goals rfl

/-! ## Frames of every instruction -/

/-- R236: the depth under a push or CALL: unchanged by a fault, else one more, and then the stack was not full. -/
theorem Effect.sp_of_push {i : Instr} {s t : State} (he : Effect i s (.next t)) (hi : (∃ rs, i = .push rs) ∨ ∃ a, i = .call a) :
    (t.status = .faulted ∧ t.sp = s.sp) ∨ (t.status = s.status ∧ t.sp = s.sp + 1 ∧ s.sp ≠ s.cfg.stackDepth) := by
  cases he with
  | invalidRegister | stackOverflow | stackUnderflow | moduloByZero => exact .inl ⟨rfl, rfl⟩
  | pushed _ _ _ h => exact .inr ⟨rfl, rfl, h⟩
  | called _ _ h => exact .inr ⟨rfl, rfl, h⟩
  | _ => rcases hi with ⟨rs, rfl⟩ | ⟨a, rfl⟩ <;> contradiction

/-- R236: the depth under a POP or RET: unchanged by a fault, else one less, and then the stack was not empty. -/
theorem Effect.sp_of_pop {i : Instr} {s t : State} (he : Effect i s (.next t)) (hi : (∃ rd, i = .pop rd) ∨ i = .ret) :
    (t.status = .faulted ∧ t.sp = s.sp) ∨ (t.status = s.status ∧ t.sp + 1 = s.sp) := by
  cases he with
  | invalidRegister | stackOverflow | stackUnderflow | moduloByZero => exact .inl ⟨rfl, rfl⟩
  | popped _ _ _ h => exact .inr ⟨rfl, Nat.succ_pred h⟩
  | returned _ h => exact .inr ⟨rfl, Nat.succ_pred h⟩
  | wroteReg _ _ _ hd hpop =>
    rcases hi with ⟨rd, rfl⟩ | rfl
    · exact absurd rfl (hpop rd)
    · cases hd
  | _ => rcases hi with ⟨rd, rfl⟩ | rfl <;> contradiction

theorem usesStack_eq_true_iff (i : Instr) :
    usesStack i = true ↔ ((∃ rs, i = .push rs) ∨ ∃ a, i = .call a) ∨ (∃ rd, i = .pop rd) ∨ i = .ret := by
  constructor
  · intro h
    cases i with
    | push rs => exact .inl (.inl ⟨rs, rfl⟩)
    | call a => exact .inl (.inr ⟨a, rfl⟩)
    | pop rd => exact .inr (.inl ⟨rd, rfl⟩)
    | ret => exact .inr (.inr rfl)
    | _ => cases h
  · rintro ((⟨_, rfl⟩ | ⟨_, rfl⟩) | ⟨_, rfl⟩ | rfl) <;> rfl

theorem usesMem_eq_false_of_usesStack {i : Instr} (h : usesStack i = true) : usesMem i = false := by
  cases i with
  | push | pop | call | ret => rfl
  | _ => cases h

theorem Effect.sp_le {i : Instr} {s t : State} (he : Effect i s (.next t)) (h : s.sp ≤ s.cfg.stackDepth) :
    t.sp ≤ t.cfg.stackDepth := by
  cases he with
  | pushed _ _ _ hsp => exact Nat.lt_of_le_of_ne h hsp
  | called _ _ hsp => exact Nat.lt_of_le_of_ne h hsp
  | popped => exact (Nat.sub_le _ _).trans h
  | returned => exact (Nat.sub_le _ _).trans h
  | _ => exact h

theorem State.memRead_congr {s t : State} (hc : t.cfg = s.cfg) (hm : t.mem = s.mem) (a : Nat) : t.memRead a = s.memRead a := by
  unfold State.memRead
  rw [hc, hm]

theorem State.readReg_writeReg_of_ne (s : State) {rd r : RegIdx} (h : r ≠ rd) (v : Word) :
    (s.writeReg rd v).readReg r = s.readReg r := by
  have hne : rd.toNat ≠ r.toNat := fun he => h (BitVec.eq_of_toNat_eq he.symm)
  simp [State.readReg, List.getD_eq_getElem?_getD, hne]

/-- R22: an instruction writes no register but its destination. -/
theorem Effect.readReg_of_ne_destReg {i : Instr} {s t : State} (he : Effect i s (.next t)) {r : RegIdx}
    (hr : i.destReg ≠ some r) : t.readReg r = s.readReg r := by
  cases he with
  | wroteReg rd v n hi =>
    have hne : r ≠ rd := fun h => hr (h ▸ hi)
    exact State.readReg_writeReg_of_ne s hne v
  | popped rd hi =>
    subst hi
    have hne : r ≠ rd := fun h => hr (congrArg some h.symm)
    exact State.readReg_writeReg_of_ne { s with sp := s.sp - 1 } hne _
  | _ => rfl

/-- R25: an instruction that is no jump, CALL or RET leaves `pc` at npc. -/
theorem Effect.pc_eq {i : Instr} {s t : State} (he : Effect i s (.next t))
    (hj : ∀ a, i ≠ .jmp a ∧ i ≠ .jz a ∧ i ≠ .jnz a ∧ i ≠ .call a) (hr : i ≠ .ret) : t.pc = s.pc := by
  cases he with
  | jumped v hi =>
    cases i with
    | jmp a => exact absurd rfl (hj a).1
    | jz a => exact absurd rfl (hj a).2.1
    | jnz a => exact absurd rfl (hj a).2.2.1
    | _ => cases hi
  | called a hi => exact absurd hi (hj a).2.2.2
  | returned hi => exact absurd hi hr
  | _ => rfl

theorem Effect.draws_eq {i : Instr} {s t : State} (he : Effect i s (.next t)) (h : ∀ rd, i ≠ .random rd) :
    t.draws = s.draws := by
  cases he with
  | wroteReg rd v n _ _ hn => exact hn.resolve_right (h rd)
  | _ => rfl

/-! ## The same of every step -/

/-- A step is an engine step under some draw. -/
theorem exists_stepWith {rand : Byte} {s t : State} (h : step s = .next t ∨ stepWith rand s = .next t) :
    ∃ r, stepWith r s = .next t := by
  rcases h with h | h
  · exact ⟨_, (step_eq_stepWith s).symm.trans h⟩
  · exact ⟨_, h⟩

/-- Everything a step that answers a next state can have done: nothing in a terminal status, a halt at the end of the code,
a fault of the decoder, or the effect of the instruction fetched. -/
theorem stepWith_cases {rand : Byte} {s t : State} (h : stepWith rand s = .next t) :
    (s.terminal = true ∧ t = s) ∨
    (s.terminal = false ∧ s.codeLen ≤ s.pc.toNat ∧ t = s.start.haltWith .programCounterExhausted) ∨
    (s.terminal = false ∧ s.pc.toNat < s.codeLen ∧ s.fetched = .unknownOpcode ∧
      t = (s.start.advance 1).raise .unknownOpcode) ∨
    (s.terminal = false ∧ s.pc.toNat < s.codeLen ∧ s.fetched = .truncated ∧
      t = (s.start.advance 1).raise .truncatedInstruction) ∨
    ∃ i rest, s.terminal = false ∧ s.pc.toNat < s.codeLen ∧ s.fetched = .ok i rest ∧
      Effect i (s.start.advance i.length) (.next t) := by
  rcases engineStep_cases (execWith rand) s with ⟨ht, he⟩ | ⟨ht, hpc, he⟩ | ⟨-, -, -, he⟩ | ⟨ht, hpc, hf, he⟩ |
    ⟨ht, hpc, hf, he⟩ | ⟨i, rest, ht, hpc, hf, he⟩ <;> replace he := he.symm.trans h
  · exact .inl ⟨ht, (Host.Outcome.next.inj he).symm⟩
  · exact .inr (.inl ⟨ht, hpc, (Host.Outcome.next.inj he).symm⟩)
  · cases he
  · exact .inr (.inr (.inl ⟨ht, hpc, hf, (Host.Outcome.next.inj he).symm⟩))
  · exact .inr (.inr (.inr (.inl ⟨ht, hpc, hf, (Host.Outcome.next.inj he).symm⟩)))
  · exact .inr (.inr (.inr (.inr ⟨i, rest, ht, hpc, hf, effect_of_execWith he⟩)))

theorem State.Inv.of_stepWith {rand : Byte} {s t : State} (h : s.Inv) (hstep : stepWith rand s = .next t) : t.Inv := by
  rcases stepWith_cases hstep with ⟨-, rfl⟩ | ⟨ht, -, rfl⟩ | ⟨ht, -, -, rfl⟩ | ⟨ht, -, -, rfl⟩ | ⟨i, rest, ht, -, -, he⟩
  · exact h
  · exact (h.start ht).haltWith rfl
  · exact ((h.start ht).setPc _).raise rfl
  · exact ((h.start ht).setPc _).raise rfl
  · exact ((h.start ht).setPc _).of_effect he

theorem State.Inv.exists_stepWith_next {s : State} (h : s.Inv) (rand : Byte) : ∃ t, stepWith rand s = .next t := by
  rcases engineStep_cases (execWith rand) s with ⟨-, he⟩ | ⟨-, -, he⟩ | ⟨-, hpc, hf, -⟩ | ⟨-, -, -, he⟩ | ⟨-, -, -, he⟩ |
    ⟨i, rest, ht, -, -, he⟩
  · exact ⟨_, he⟩
  · exact ⟨_, he⟩
  · exact absurd hf (State.fetched_ne_noByte (h.pc_lt_memSize hpc))
  · exact ⟨_, he⟩
  · exact ⟨_, he⟩
  · obtain ⟨t, hnext⟩ := (execWith_effect rand i _).exists_next ((h.start ht).setPc _)
    exact ⟨t, he.trans hnext⟩

theorem stepWith_fixed_fields {rand : Byte} {s t : State} (h : stepWith rand s = .next t) :
    t.codeLen = s.codeLen ∧ t.cfg = s.cfg ∧ t.programLoaded = s.programLoaded := by
  rcases stepWith_cases h with ⟨-, rfl⟩ | ⟨-, -, rfl⟩ | ⟨-, -, -, rfl⟩ | ⟨-, -, -, rfl⟩ | ⟨i, rest, -, -, -, he⟩
  · exact ⟨rfl, rfl, rfl⟩
  · exact ⟨rfl, rfl, rfl⟩
  · exact ⟨rfl, rfl, rfl⟩
  · exact ⟨rfl, rfl, rfl⟩
  · exact he.fixed_fields

/-- A fault raised in a step, wherever `pc` stands then, writes nothing else. -/
theorem faultedFrom_raise_advance (s : State) (n : Nat) (r : StopReason) : s.FaultedFrom r ((s.start.advance n).raise r) :=
  rfl

theorem faultedFrom_of_stepWith {rand : Byte} {s t : State} (hs : s.terminal = false) (h : stepWith rand s = .next t)
    (ht : t.status = .faulted) : s.FaultedFrom t.stopReason t := by
  rcases stepWith_cases h with ⟨hs', -⟩ | ⟨-, -, rfl⟩ | ⟨-, -, -, rfl⟩ | ⟨-, -, -, rfl⟩ | ⟨i, rest, -, -, -, he⟩
  · cases hs.symm.trans hs'
  · cases ht
  · exact faultedFrom_raise_advance s 1 _
  · exact faultedFrom_raise_advance s 1 _
  · rw [he.eq_raise_of_faulted (by simp) ht]
    exact faultedFrom_raise_advance s i.length _

/-! ## The statements -/

/-- Settles O10: the engine's own updates keep the invariant, and so does every effect of an instruction. -/
theorem everyStepKeepsTheInvariant : Obligations.EveryStepKeepsTheInvariant := by
  intro rand s t hinv h
  obtain ⟨r, hr⟩ := exists_stepWith h
  exact hinv.of_stepWith hr

/-- Settles O11: the only stops of the model are accesses outside memory, which the invariant excludes. -/
theorem everyStepAnswersANextState : Obligations.EveryStepAnswersANextState := by
  intro rand s hinv
  refine ⟨?_, hinv.exists_stepWith_next rand, _, step_eq_stepWith s⟩
  rw [step_eq_stepWith]
  exact hinv.exists_stepWith_next _

/-- Settles O18: a fault is raised by the engine or by an instruction, and raising it is all that is done. -/
theorem faultingStepWritesNothingElse : Obligations.FaultingStepWritesNothingElse := by
  intro rand s t hs h ht
  obtain ⟨r, hr⟩ := exists_stepWith h
  exact faultedFrom_of_stepWith hs hr ht

/-- Settles O20: neither the engine nor an instruction writes the three fields. -/
theorem noStepChangesTheCodeLength : Obligations.NoStepChangesTheCodeLength := by
  intro rand s t h
  obtain ⟨r, hr⟩ := exists_stepWith h
  exact stepWith_fixed_fields hr

/-- Settles O23: an instruction that does not use the stack leaves it alone; the others are counted by their effects. -/
theorem onlyStackInstructionsTouchTheStack : Obligations.OnlyStackInstructionsTouchTheStack := by
  intro i s t ht pushes pops
  have he := effect_of_exec ht
  refine ⟨fun hpush hpop => ?_, fun h a => ?_, fun hs h => ?_, fun hs h => ?_, he.sp_le⟩
  · have hu : usesStack i ≠ true := fun h => ((usesStack_eq_true_iff i).mp h).elim hpush hpop
    exact stack_eq_of_unused (by simpa using hu) ht
  · have hu := usesMem_eq_false_of_usesStack ((usesStack_eq_true_iff i).mpr h)
    exact State.memRead_congr he.fixed_fields.2.1 (mem_eq_of_unused hu ht) a
  · rcases he.sp_of_push h with ⟨hst, hsp⟩ | ⟨hst, hsp, -⟩ <;> simp [hst, hsp, hs]
  · rcases he.sp_of_pop h with ⟨hst, hsp⟩ | ⟨hst, hsp⟩ <;> simp [hst, hsp, hs]

/-- Settles O24: STORE_MEM writes the byte at its data address, and no other instruction writes memory. -/
theorem onlyStoreMemWritesMemory : Obligations.OnlyStoreMemWritesMemory := by
  intro i s t hwf ht a ha
  by_cases hi : ∃ rs ra, i = .storeMem rs ra
  · obtain ⟨rs, ra, rfl⟩ := hi
    exact memRead_eq_of_storeMem hwf ht (ha rs ra rfl)
  · obtain ⟨-, hcfg, -⟩ := (effect_of_exec ht).fixed_fields
    exact State.memRead_congr hcfg (mem_eq_of_not_storeMem (fun rs ra h => hi ⟨rs, ra, h⟩) ht) a

/-- Settles O25: the effects that write a register write the destination. -/
theorem onlyTheNamedRegisterIsWritten : Obligations.OnlyTheNamedRegisterIsWritten :=
  fun _ _ _ ht _ hr => (effect_of_exec ht).readReg_of_ne_destReg hr

/-- Settles O26: by the effects, one clause each. -/
theorem onlyControlTransfersWriteThePc : Obligations.OnlyControlTransfersWriteThePc := by
  intro i s t ht
  have he := effect_of_exec ht
  exact ⟨fun _ hj hr => he.pc_eq hj hr, he.status_cases, he.draws_eq⟩

end Sys2Proof.Machine

/-! PROOFS of the statements on single instructions (spec/41_register_moves.md to spec/45_stack.md): first what each shape of body
answers, one lemma per case, then the values, then the statements. -/

namespace Sys2Proof.Machine

/-! ## Register operands -/

theorem Instr.mem_regs_of_destReg {i : Instr} {rd : RegIdx} (h : i.destReg = some rd) : rd ∈ i.regs := by
  cases i with
  | halt | jmp | jz | jnz | call | ret | storeMem | cmp | push => cases h
  | _ =>
    obtain rfl := Option.some.inj h
    exact List.mem_cons_self

/-- A register of a well-formed instruction reads back what is written to it. -/
theorem State.Inv.readReg_writeReg_self {s : State} (h : s.Inv) {i : Instr} (hwf : i.wf s.cfg = true) {r : RegIdx}
    (hr : r ∈ i.regs) (v : Word) : (s.writeReg r v).readReg r = v := by
  have hlt : r.toNat < s.regs.length := h.regs_length ▸ lt_regCount_of_wf hwf hr
  rw [State.readReg_writeReg s hlt, if_pos rfl]

/-- R107: an ill-formed instruction faults before anything else. -/
theorem exec_of_not_wf {i : Instr} {s : State} (h : i.wf s.cfg = false) : exec i s = .next (s.raise .invalidRegister) := by
  cases i with
  | halt | jmp | jz | jnz | call | ret => cases h
  | _ => exact State.checkRegs_of_not_all s h _

theorem faults_of_exec {i : Instr} {s : State} {r : StopReason} (h : exec i s = .next (s.raise r)) : Faults i s r :=
  ⟨_, h, rfl⟩

theorem faultsIfIllFormed (i : Instr) (s : State) : FaultsIfIllFormed i s :=
  fun h => faults_of_exec (exec_of_not_wf h)

/-- A well-formed instruction whose checked body writes its destination register, and nothing else, does so. -/
theorem State.Inv.writesReg {s : State} (h : s.Inv) {i : Instr} (hwf : i.wf s.cfg = true) {rd : RegIdx} {v : Word}
    (hd : i.destReg = some rd) (he : exec i s = s.checkRegs i.regs (.next (s.writeReg rd v))) : WritesReg i s rd v :=
  ⟨s.writeReg rd v, he.trans (State.checkRegs_of_all s hwf _), rfl,
    h.readReg_writeReg_self hwf (Instr.mem_regs_of_destReg hd) v, fun _ hr => State.readReg_writeReg_of_ne s hr v⟩

/-! ## The other bodies -/

theorem execWith_random_of_wf {s : State} {rd : RegIdx} (h : (Instr.random rd).wf s.cfg = true) (b : Byte) :
    execWith b (.random rd) s = .next { s.writeReg rd (zextByte b) with draws := s.draws + 1 } :=
  State.checkRegs_of_all s h _

theorem exec_mod_of_zero {s : State} {rd rs1 rs2 : RegIdx} (h : (Instr.mod rd rs1 rs2).wf s.cfg = true)
    (h0 : s.readReg rs2 = 0#32) : exec (.mod rd rs1 rs2) s = .next (s.raise .divideOrModuloByZero) :=
  (State.checkRegs_of_all s h _).trans (if_pos h0)

theorem exec_mod_of_ne_zero {s : State} {rd rs1 rs2 : RegIdx} (h0 : s.readReg rs2 ≠ 0#32) :
    exec (.mod rd rs1 rs2) s =
      s.checkRegs (Instr.mod rd rs1 rs2).regs (.next (s.writeReg rd (s.readReg rs1 % s.readReg rs2))) :=
  congrArg (s.checkRegs _) (if_neg h0)

theorem exec_loadMem_of_lt {s : State} {rd ra : RegIdx} (h : s.dataAddr ra < s.cfg.memSize) :
    exec (.loadMem rd ra) s =
      s.checkRegs (Instr.loadMem rd ra).regs (.next (s.writeReg rd (zextByte (s.mem.read (s.dataAddr ra))))) := by
  show s.checkRegs _ _ = _
  rw [State.memRead_of_lt s h]
  rfl

theorem exec_storeMem_of_wf {s : State} {rs ra : RegIdx} (hwf : (Instr.storeMem rs ra).wf s.cfg = true)
    (h : s.dataAddr ra < s.cfg.memSize) :
    exec (.storeMem rs ra) s = .next (s.withMem (s.mem.write (s.dataAddr ra) (truncByte (s.readReg rs)))) := by
  refine (State.checkRegs_of_all s hwf _).trans ?_
  rw [State.memWrite_of_lt s h]
  rfl

/-- R53: the byte written is read at its address. -/
theorem State.memRead_write_self {s : State} (hwf : s.mem.wf = true) {a : Nat} (h : a < s.cfg.memSize) (v : Byte) :
    (s.withMem (s.mem.write a v)).memRead a = some v :=
  (State.memRead_of_lt (s.withMem (s.mem.write a v)) h).trans
    (congrArg some ((Memory.read_write hwf a v a).trans (if_pos rfl)))

theorem exec_push_of_full {s : State} {rs : RegIdx} (hwf : (Instr.push rs).wf s.cfg = true) (h : s.sp = s.cfg.stackDepth) :
    exec (.push rs) s = .next (s.raise .stackOverflow) :=
  (State.checkRegs_of_all s hwf _).trans (State.pushThen_full h _ _)

theorem exec_push_of_room {s : State} {rs : RegIdx} (hwf : (Instr.push rs).wf s.cfg = true) (h : s.sp ≠ s.cfg.stackDepth) :
    exec (.push rs) s = .next (s.withStack (s.stk.set s.sp (s.readReg rs)) (s.sp + 1)) :=
  (State.checkRegs_of_all s hwf _).trans (State.pushThen_room h _ _)

theorem exec_pop_of_empty {s : State} {rd : RegIdx} (hwf : (Instr.pop rd).wf s.cfg = true) (h : s.sp = 0) :
    exec (.pop rd) s = .next (s.raise .stackUnderflow) :=
  (State.checkRegs_of_all s hwf _).trans (State.popThen_empty h _)

theorem exec_pop_of_pos {s : State} {rd : RegIdx} (hwf : (Instr.pop rd).wf s.cfg = true) (h : s.sp ≠ 0) :
    exec (.pop rd) s = .next ((s.withStack s.stk (s.sp - 1)).writeReg rd (s.stk.getD (s.sp - 1) 0#32)) :=
  (State.checkRegs_of_all s hwf _).trans (State.popThen_some h _)

theorem exec_call_of_full {s : State} (a : Addr) (h : s.sp = s.cfg.stackDepth) :
    exec (.call a) s = .next (s.raise .stackOverflow) :=
  State.pushThen_full h _ _

theorem exec_call_of_room {s : State} (a : Addr) (h : s.sp ≠ s.cfg.stackDepth) :
    exec (.call a) s = .next ((s.withStack (s.stk.set s.sp s.pc) (s.sp + 1)).setPc (zextAddr a)) :=
  State.pushThen_room h _ _

theorem exec_ret_of_empty {s : State} (h : s.sp = 0) : exec .ret s = .next (s.raise .stackUnderflow) :=
  State.popThen_empty h _

theorem exec_ret_of_pos {s : State} (h : s.sp ≠ 0) :
    exec .ret s = .next ((s.withStack s.stk (s.sp - 1)).setPc (s.stk.getD (s.sp - 1) 0#32)) :=
  State.popThen_some h _

/-- R28: the entry a push writes is the top of the stack. -/
theorem State.Inv.getElem?_set_sp {s : State} (h : s.Inv) (hsp : s.sp ≠ s.cfg.stackDepth) (v : Word) :
    (s.stk.set s.sp v)[s.sp]? = some v :=
  List.getElem?_set_self (h.stk_length ▸ Nat.lt_of_le_of_ne h.sp_le hsp)

/-- R28: above an empty stack there is a top entry. -/
theorem State.Inv.getElem?_top {s : State} (h : s.Inv) (hsp : s.sp ≠ 0) :
    s.stk[s.sp - 1]? = some (s.stk.getD (s.sp - 1) 0#32) := by
  have hlt : s.sp - 1 < s.stk.length := by
    have := h.sp_le
    rw [h.stk_length]
    omega
  rw [List.getD_eq_getElem _ _ hlt, List.getElem?_eq_getElem hlt]

theorem exec_jmp (a : Addr) (s : State) : exec (.jmp a) s = .next (s.setPc (zextAddr a)) :=
  congrArg Host.Outcome.next (State.jumpIf_eq s true a)

theorem exec_jz (a : Addr) (s : State) : exec (.jz a) s = .next (s.setPc (if s.flag = true then zextAddr a else s.pc)) :=
  congrArg Host.Outcome.next (State.jumpIf_eq s s.flag a)

theorem exec_jnz (a : Addr) (s : State) :
    exec (.jnz a) s = .next (s.setPc (if s.flag = false then zextAddr a else s.pc)) := by
  refine congrArg Host.Outcome.next ((State.jumpIf_eq s (!s.flag) a).trans ?_)
  simp only [Bool.not_eq_true']

/-! ## Values -/

theorem zextAddr_eq_ofNat (a : Addr) : zextAddr a = BitVec.ofNat 32 a.toNat := by
  rw [← zextAddr_toNat, BitVec.ofNat_toNat, BitVec.setWidth_eq]

theorem truncByte_eq_ofNat (v : Word) : truncByte v = BitVec.ofNat 8 (v.toNat % 2 ^ 8) := by
  rw [← truncByte_toNat, BitVec.ofNat_toNat, BitVec.setWidth_eq]

/-- `x & 31` is `x` modulo 32. -/
theorem shiftAmount_eq_mod (v : Word) : shiftAmount v = v.toNat % 32 := by
  rw [shiftAmount, BitVec.toNat_and]
  exact Nat.and_two_pow_sub_one_eq_mod v.toNat 5

theorem add_eq_ofNat (x y : Word) : x + y = BitVec.ofNat 32 ((x.toNat + y.toNat) % 2 ^ 32) := by
  apply BitVec.eq_of_toNat_eq
  simp

theorem sub_eq_ofInt (x y : Word) : x - y = BitVec.ofInt 32 (((x.toNat : Int) - (y.toNat : Int)) % 2 ^ 32) := by
  apply BitVec.eq_of_toNat_eq
  rw [BitVec.toNat_sub, BitVec.toNat_ofInt]
  omega

theorem mul_eq_ofNat (x y : Word) : x * y = BitVec.ofNat 32 (x.toNat * y.toNat % 2 ^ 32) := by
  apply BitVec.eq_of_toNat_eq
  simp

theorem not_eq_ofNat (x : Word) : ~~~x = BitVec.ofNat 32 (0xFFFFFFFF - x.toNat) := by
  apply BitVec.eq_of_toNat_eq
  rw [BitVec.toNat_not, BitVec.toNat_ofNat]
  omega

theorem shiftLeft_eq_ofNat (x : Word) (k : Nat) : x <<< k = BitVec.ofNat 32 (x.toNat * 2 ^ k % 2 ^ 32) := by
  apply BitVec.eq_of_toNat_eq
  simp [Nat.shiftLeft_eq]

theorem ushiftRight_eq_ofNat (x : Word) (k : Nat) : x >>> k = BitVec.ofNat 32 (x.toNat / 2 ^ k) := by
  rw [← Nat.shiftRight_eq_div_pow, ← BitVec.toNat_ushiftRight, BitVec.ofNat_toNat, BitVec.setWidth_eq]

/-! ### Rotates -/

theorem rotateLeft_eq (v : Word) {k : Nat} (hk : k < 32) : rotateLeft v k = v.rotateLeft k := by
  rw [rotateLeft, BitVec.rotateLeft_def, Nat.mod_eq_of_lt hk]
  split
  · subst k
    simp [BitVec.ushiftRight_eq_zero]
  · rfl

theorem rotateRight_eq (v : Word) {k : Nat} (hk : k < 32) : rotateRight v k = v.rotateRight k := by
  rw [rotateRight, BitVec.rotateRight_def, Nat.mod_eq_of_lt hk]
  split
  · subst k
    simp
  · rfl

/-- R159: bit `j` goes up to bit `(j + k) mod 32`. -/
theorem getLsbD_rotateLeft_add (v : Word) {k j : Nat} (hk : k < 32) (hj : j < 32) :
    (rotateLeft v k).getLsbD ((j + k) % 32) = v.getLsbD j := by
  rw [rotateLeft_eq v hk, BitVec.getLsbD_rotateLeft, Nat.mod_eq_of_lt hk]
  by_cases hwrap : j + k < 32
  · rw [Nat.mod_eq_of_lt hwrap]
    simp [hwrap]
  · have hlow : (j + k) % 32 = j + k - 32 := by omega
    have hlt : j + k - 32 < k := by omega
    rw [hlow, decide_eq_true hlt, show 32 - k + (j + k - 32) = j by omega]
    rfl

/-- R160: bit `(j + k) mod 32` comes down to bit `j`. -/
theorem getLsbD_rotateRight (v : Word) {k j : Nat} (hk : k < 32) (hj : j < 32) :
    (rotateRight v k).getLsbD j = v.getLsbD ((j + k) % 32) := by
  rw [rotateRight_eq v hk, BitVec.getLsbD_rotateRight, Nat.mod_eq_of_lt hk]
  by_cases hwrap : j + k < 32
  · have hlt : j < 32 - k := by omega
    rw [Nat.mod_eq_of_lt hwrap, decide_eq_true hlt, Nat.add_comm]
    rfl
  · have hlow : (j + k) % 32 = j - (32 - k) := by omega
    have hge : ¬ j < 32 - k := by omega
    rw [hlow, decide_eq_false hge]
    simp [hj]

/-- R171: both rotates move every bit by the same way, there and back. -/
theorem rotateRight_rotateLeft (v : Word) {k : Nat} (hk : k < 32) : rotateRight (rotateLeft v k) k = v := by
  refine BitVec.eq_of_getLsbD_eq fun j hj => ?_
  rw [getLsbD_rotateRight _ hk hj, getLsbD_rotateLeft_add v hk hj]

/-! ## Register moves, arithmetic and logic -/

/-- Settles O27: both bodies write their destination. -/
theorem loadAndMoveWriteTheirRegister : Obligations.LoadAndMoveWriteTheirRegister := by
  intro s rd rs imm i3 i2 i1 i0 h
  refine ⟨?_, be32_toNat i3 i2 i1 i0, rfl, fun hwf => h.writesReg hwf rfl rfl, fun hwf => h.writesReg hwf rfl rfl,
    faultsIfIllFormed _ s, faultsIfIllFormed _ s⟩
  exact congrArg (fun bs => 0x01 :: rd :: bs) (be32Bytes_be32 i3 i2 i1 i0)

/-- Settles O28: the body with the draw given, which `exec` runs with the free draw. -/
theorem randomWritesTheDrawnByte : Obligations.RandomWritesTheDrawnByte := by
  intro s rd h
  refine ⟨rfl, fun hwf => ⟨fun b => ?_, ?_⟩, faultsIfIllFormed _ s⟩
  · have hval : (s.writeReg rd (zextByte b)).readReg rd = zextByte b :=
      h.readReg_writeReg_self hwf List.mem_cons_self _
    refine ⟨_, execWith_random_of_wf hwf b, ?_, fun r hr => State.readReg_writeReg_of_ne s hr _, rfl⟩
    exact (congrArg BitVec.toNat hval).trans (zextByte_toNat b)
  · exact ⟨Config.randByte s.draws, _, execWith_random_of_wf hwf _, execWith_random_of_wf hwf _⟩

/-- Settles O29: the checked body writes the sum, which wraps as a word. -/
theorem addWrapsModulo2To32 : Obligations.AddWrapsModulo2To32 := by
  intro s rd rs1 rs2 h
  refine ⟨rfl, fun hwf => ?_, faultsIfIllFormed _ s⟩
  rw [← add_eq_ofNat]
  exact h.writesReg hwf rfl rfl

/-- Settles O30: the checked bodies write the difference and the product, which wrap as words. -/
theorem subAndMulWrapModulo2To32 : Obligations.SubAndMulWrapModulo2To32 := by
  intro s rd rs1 rs2 h x y
  refine ⟨rfl, rfl, fun hwf => ⟨?_, ?_⟩, faultsIfIllFormed _ s, faultsIfIllFormed _ s⟩
  · rw [← sub_eq_ofInt]
    exact h.writesReg hwf rfl rfl
  · rw [← mul_eq_ofNat]
    exact h.writesReg (i := .mul rd rs1 rs2) hwf rfl rfl

/-- Settles O31: a bitwise operation on words is the one on their values; NOT is the distance to the largest word. -/
theorem xorAndOrNotAreBitwise : Obligations.XorAndOrNotAreBitwise := by
  intro s rd rs1 rs2 h x y
  have hx : BitVec.ofNat 32 x = s.readReg rs1 := by rw [BitVec.ofNat_toNat, BitVec.setWidth_eq]
  have hy : BitVec.ofNat 32 y = s.readReg rs2 := by rw [BitVec.ofNat_toNat, BitVec.setWidth_eq]
  refine ⟨rfl, rfl, rfl, rfl, fun hwf => ⟨?_, ?_, ?_⟩, fun hwf => ?_, faultsIfIllFormed _ s, faultsIfIllFormed _ s,
    faultsIfIllFormed _ s, faultsIfIllFormed _ s⟩
  · rw [BitVec.ofNat_xor, hx, hy]
    exact h.writesReg hwf rfl rfl
  · rw [BitVec.ofNat_and, hx, hy]
    exact h.writesReg (i := .and rd rs1 rs2) hwf rfl rfl
  · rw [BitVec.ofNat_or, hx, hy]
    exact h.writesReg (i := .or rd rs1 rs2) hwf rfl rfl
  · rw [← not_eq_ofNat]
    exact h.writesReg hwf rfl rfl

/-- Settles O32: shifting by `k` multiplies or divides by `2 ^ k`. -/
theorem shiftsFillWithZeros : Obligations.ShiftsFillWithZeros := by
  intro s rd rs1 rs2 h v k
  have hamount : k = shiftAmount (s.readReg rs2) := (shiftAmount_eq_mod _).symm
  refine ⟨rfl, rfl, fun hwf => ⟨?_, ?_⟩, faultsIfIllFormed _ s, faultsIfIllFormed _ s⟩
  · rw [← shiftLeft_eq_ofNat, hamount]
    exact h.writesReg hwf rfl rfl
  · rw [← ushiftRight_eq_ofNat, hamount]
    exact h.writesReg (i := .shiftR rd rs1 rs2) hwf rfl rfl

/-- Settles O33: by the bits of the two rotates. -/
theorem rotatesMoveEveryBitAround : Obligations.RotatesMoveEveryBitAround := by
  intro s rd rs1 rs2 h v k
  have hamount : k = shiftAmount (s.readReg rs2) := (shiftAmount_eq_mod _).symm
  have hk : k < 32 := Nat.mod_lt _ (by decide)
  refine ⟨rfl, rfl, fun hwf => ⟨⟨rotateLeft v k, ?_, fun j hj => getLsbD_rotateLeft_add v hk hj⟩,
    rotateRight v k, ?_, fun j hj => getLsbD_rotateRight v hk hj⟩, faultsIfIllFormed _ s, faultsIfIllFormed _ s⟩
  · rw [hamount]
    exact h.writesReg hwf rfl rfl
  · rw [hamount]
    exact h.writesReg (i := .rotR rd rs1 rs2) hwf rfl rfl

/-- Settles O34: the ROT_R reads the rotated word and an amount equal modulo 32. -/
theorem rotLThenRotRIsTheIdentity : Obligations.RotLThenRotRIsTheIdentity := by
  intro s rd rs1 rs2 rd' rs2' h hwfL hwfR
  obtain ⟨t, ht, -, hrd, -⟩ :
      WritesReg (.rotL rd rs1 rs2) s rd (rotateLeft (s.readReg rs1) (shiftAmount (s.readReg rs2))) :=
    h.writesReg hwfL rfl rfl
  obtain ⟨-, hcfg, -⟩ := (effect_of_exec ht).fixed_fields
  refine ⟨t, ht, fun hmod => ?_⟩
  have hamount : shiftAmount (t.readReg rs2') = shiftAmount (s.readReg rs2) := by
    rw [shiftAmount_eq_mod, shiftAmount_eq_mod, hmod]
  obtain ⟨u, hu, -, hrd', -⟩ :
      WritesReg (.rotR rd' rd rs2') t rd' (rotateRight (t.readReg rd) (shiftAmount (t.readReg rs2'))) :=
    (h.of_effect (effect_of_exec ht)).writesReg (hcfg ▸ hwfR) rfl rfl
  refine ⟨u, hu, ?_⟩
  rw [hrd', hrd, hamount, rotateRight_rotateLeft _ (shiftAmount_lt _)]

/-- Settles O35: by the divisor. -/
theorem modIsTheUnsignedRemainder : Obligations.ModIsTheUnsignedRemainder := by
  intro s rd rs1 rs2 h
  refine ⟨rfl, fun hwf => ⟨fun h0 => ?_, fun h0 => faults_of_exec (exec_mod_of_zero hwf h0)⟩, faultsIfIllFormed _ s⟩
  have hpos : 0 < (s.readReg rs2).toNat := Nat.pos_of_ne_zero fun hz => h0 (BitVec.eq_of_toNat_eq hz)
  refine ⟨_, h.writesReg hwf rfl (exec_mod_of_ne_zero h0), BitVec.toNat_umod, ?_⟩
  rw [BitVec.toNat_umod]
  exact Nat.mod_lt _ hpos

/-! ## Memory access -/

/-- Settles O36: the data address is inside memory. -/
theorem loadMemReadsOneByteZeroExtended : Obligations.LoadMemReadsOneByteZeroExtended := by
  intro s rd ra h
  have hlt := h.dataAddr_lt ra
  exact ⟨rfl, fun hwf => ⟨_, _, State.memRead_of_lt s hlt, zextByte_toNat _, h.writesReg hwf rfl (exec_loadMem_of_lt hlt)⟩,
    faultsIfIllFormed _ s⟩

/-- Settles O37: the data address is inside memory, and the write is read there and nowhere else. -/
theorem storeMemWritesOneByte : Obligations.StoreMemWritesOneByte := by
  intro s rs ra h
  have hlt := h.dataAddr_lt ra
  refine ⟨rfl, fun hwf => ?_, faultsIfIllFormed _ s⟩
  have he := exec_storeMem_of_wf hwf hlt
  refine ⟨_, he, rfl, hlt, rfl, ?_, fun a ha => memRead_eq_of_storeMem h.mem_wf he ha⟩
  rw [State.memRead_write_self h.mem_wf hlt, truncByte_eq_ofNat]

/-- Settles O38: both address registers give the same data address, before and after the store. -/
theorem storeThenLoadReturnsTheLowByte : Obligations.StoreThenLoadReturnsTheLowByte := by
  intro s rs ra rd ra' h hwfS hwfL haddr
  have hlt := h.dataAddr_lt ra
  have ht := exec_storeMem_of_wf hwfS hlt
  have hInv := h.of_effect (effect_of_exec ht)
  obtain ⟨u, hu, -, hrd, -⟩ := hInv.writesReg hwfL rfl (exec_loadMem_of_lt (hInv.dataAddr_lt ra'))
  refine ⟨_, u, ht, hu, ?_⟩
  have hread : (s.mem.write (s.dataAddr ra) (truncByte (s.readReg rs))).read (s.dataAddr ra') = truncByte (s.readReg rs) :=
    (Memory.read_write h.mem_wf _ _ _).trans (if_pos haddr.symm)
  rw [hrd, zextByte_toNat, ← truncByte_toNat]
  exact congrArg BitVec.toNat hread

/-! ## Control flow -/

/-- Settles O40: HALTED is terminal, and a step does nothing there. -/
theorem haltEndsTheRun : Obligations.HaltEndsTheRun := by
  intro s
  refine ⟨rfl, rfl, fun t ht => ?_⟩
  obtain rfl := Host.Outcome.next.inj ht
  exact ⟨rfl, engineStep_of_terminal exec rfl⟩

/-- Settles O42: the checked body writes the flag, and no other effect does. -/
theorem cmpSetsTheFlagToEquality : Obligations.CmpSetsTheFlagToEquality :=
  fun _ _ _ => ⟨rfl, exec_cmp_of_wf, faultsIfIllFormed _ _, fun _ _ ht hcmp => flag_eq_of_not_cmp hcmp ht⟩

/-- Settles O43: the branches read the flag the CMP wrote. -/
theorem branchAfterCmpSeesTheNewFlag : Obligations.BranchAfterCmpSeesTheNewFlag := by
  intro s rs1 rs2 a hwf
  refine ⟨_, _, _, exec_cmp_of_wf hwf, exec_jz a _, exec_jnz a _, fun heq => ?_, fun hne => ?_⟩
  · have hflag : equalFlag (s.readReg rs1) (s.readReg rs2) = true := decide_eq_true heq
    simp [hflag, zextAddr_toNat]
  · have hflag : equalFlag (s.readReg rs1) (s.readReg rs2) = false := decide_eq_false hne
    simp [hflag, zextAddr_toNat]

/-! ## The stack -/

/-- Settles O44: by the room on the stack. -/
theorem pushPutsTheRegisterOnTop : Obligations.PushPutsTheRegisterOnTop := by
  intro s rs h
  refine ⟨rfl, fun hwf => ⟨fun hlt => ?_, fun hfull => faults_of_exec (exec_push_of_full hwf hfull)⟩, faultsIfIllFormed _ s⟩
  exact ⟨_, exec_push_of_room hwf hlt.ne, rfl, h.getElem?_set_sp hlt.ne _, fun j hj => List.getElem?_set_ne hj.symm⟩

/-- Settles O45: by the depth. -/
theorem popTakesTheTopIntoTheRegister : Obligations.PopTakesTheTopIntoTheRegister := by
  intro s rd h
  refine ⟨rfl, fun hwf => ⟨fun hpos => ?_, fun hempty => faults_of_exec (exec_pop_of_empty hwf hempty)⟩,
    faultsIfIllFormed _ s⟩
  refine ⟨_, exec_pop_of_pos hwf hpos.ne', rfl, ?_, fun r hr => State.readReg_writeReg_of_ne _ hr _⟩
  rw [h.getElem?_top hpos.ne']
  exact congrArg some (State.Inv.readReg_writeReg_self h.pop hwf List.mem_cons_self _)

/-- Settles O46: by the room on the stack. -/
theorem callPushesTheReturnAddressAndJumps : Obligations.CallPushesTheReturnAddressAndJumps := by
  intro s a ah al h
  refine ⟨congrArg (0x12 :: ·) (be16Bytes_be16 ah al), fun hlt => ?_, fun hfull => faults_of_exec (exec_call_of_full a hfull)⟩
  refine ⟨_, exec_call_of_room a hlt.ne, ?_, h.getElem?_set_sp hlt.ne _, fun j hj => List.getElem?_set_ne hj.symm⟩
  rw [zextAddr_eq_ofNat]
  rfl

/-- Settles O47: by the depth. -/
theorem retPopsTheTopIntoThePc : Obligations.RetPopsTheTopIntoThePc := by
  intro s h
  exact ⟨rfl, fun hpos => ⟨_, exec_ret_of_pos hpos.ne', rfl, (h.getElem?_top hpos.ne').symm⟩,
    fun hempty => faults_of_exec (exec_ret_of_empty hempty)⟩

/-- Settles O48: the entry popped is the entry pushed, at the depth before. -/
theorem pushThenPopReturnsTheValue : Obligations.PushThenPopReturnsTheValue := by
  intro s rs rd h hwf hlt
  have hwfPush : (Instr.push rs).wf s.cfg = true := by
    simpa [Instr.wf, Instr.regs] using lt_regCount_of_wf hwf (r := rs) (by simp [Instr.regs])
  have hwfPop : (Instr.pop rd).wf s.cfg = true := by
    simpa [Instr.wf, Instr.regs] using lt_regCount_of_wf hwf (r := rd) (by simp [Instr.regs])
  have ht := exec_push_of_room hwfPush hlt.ne
  have htop : (s.stk.set s.sp (s.readReg rs)).getD s.sp 0#32 = s.readReg rs := by
    rw [List.getD_eq_getElem?_getD, h.getElem?_set_sp hlt.ne, Option.getD_some]
  refine ⟨_, _, ht, exec_pop_of_pos hwfPop (Nat.succ_ne_zero _), ?_, rfl, fun r hr => ?_, fun j hj => ?_⟩
  · exact ((h.of_effect (effect_of_exec ht)).pop.readReg_writeReg_self hwfPop List.mem_cons_self _).trans htop
  · exact State.readReg_writeReg_of_ne _ hr _
  · exact List.getElem?_set_ne hj.ne'

end Sys2Proof.Machine

/-! PROOFS of the statements on the step (spec/40_engine.md, spec/60_exceptions.md): what the engine answers in each of its cases,
what a fetch decodes in terms of the bytes in memory, then the statements. -/

namespace Sys2Proof.Machine

/-! ## The engine, one equation per case -/

section
variable {run run' : Instr → State → Result} {s : State}

theorem engineStep_of_past_code (ht : s.terminal = false) (hpc : s.codeLen ≤ s.pc.toNat) :
    engineStep run s = .next (s.start.haltWith .programCounterExhausted) := by
  rw [engineStep, if_neg (by simp [ht]), if_pos hpc]

theorem engineStep_of_noByte (ht : s.terminal = false) (hpc : s.pc.toNat < s.codeLen) (hf : s.fetched = .noByte) :
    engineStep run s = .fault (.outsideMemory s.pc.toNat) := by
  rw [engineStep, if_neg (by simp [ht]), if_neg hpc.not_ge, hf]

theorem engineStep_of_unknownOpcode (ht : s.terminal = false) (hpc : s.pc.toNat < s.codeLen) (hf : s.fetched = .unknownOpcode) :
    engineStep run s = .next ((s.start.advance 1).raise .unknownOpcode) := by
  rw [engineStep, if_neg (by simp [ht]), if_neg hpc.not_ge, hf]

theorem engineStep_of_truncated (ht : s.terminal = false) (hpc : s.pc.toNat < s.codeLen) (hf : s.fetched = .truncated) :
    engineStep run s = .next ((s.start.advance 1).raise .truncatedInstruction) := by
  rw [engineStep, if_neg (by simp [ht]), if_neg hpc.not_ge, hf]

theorem engineStep_of_ok (ht : s.terminal = false) (hpc : s.pc.toNat < s.codeLen) {i : Instr} {rest : List Byte}
    (hf : s.fetched = .ok i rest) : engineStep run s = run i (s.start.advance i.length) := by
  rw [engineStep, if_neg (by simp [ht]), if_neg hpc.not_ge, hf]

/-- The bodies matter to a step only at the instruction it fetches. -/
theorem engineStep_congr (h : ∀ i rest, s.fetched = .ok i rest → ∀ t, run i t = run' i t) :
    engineStep run s = engineStep run' s := by
  rcases engineStep_cases run s with ⟨ht, he⟩ | ⟨ht, hpc, he⟩ | ⟨ht, hpc, hf, he⟩ | ⟨ht, hpc, hf, he⟩ | ⟨ht, hpc, hf, he⟩ |
    ⟨i, rest, ht, hpc, hf, he⟩ <;> rw [he]
  · rw [engineStep_of_terminal _ ht]
  · rw [engineStep_of_past_code ht hpc]
  · rw [engineStep_of_noByte ht hpc hf]
  · rw [engineStep_of_unknownOpcode ht hpc hf]
  · rw [engineStep_of_truncated ht hpc hf]
  · rw [engineStep_of_ok ht hpc hf, h i rest hf]

end

theorem State.start_of_running {s : State} (h : s.status = .running) : s.start = s := by
  unfold State.start
  rw [← h]

/-! ## The fetch, from the bytes in memory -/

/-- The fetch window depends on the parameters and memory only. -/
theorem State.window_congr {s t : State} (hc : t.cfg = s.cfg) (hm : t.mem = s.mem) (n a : Nat) :
    t.window n a = s.window n a :=
  List.ext_getElem? fun k => by rw [State.window_getElem?, State.window_getElem?, State.memRead_congr hc hm]

theorem State.fetched_start (s : State) : s.start.fetched = s.fetched :=
  congrArg (decode s.cfg.opcodeMap) (State.window_congr (t := s.start) rfl rfl _ _)

/-- R102: a step carries on from READY as it does from RUNNING. -/
theorem engineStep_start (run : Instr → State → Result) {s : State} (ht : s.terminal = false) :
    engineStep run s.start = engineStep run s := by
  have ht' : s.start.terminal = false := rfl
  by_cases hpc : s.codeLen ≤ s.pc.toNat
  · exact (engineStep_of_past_code ht' hpc).trans (engineStep_of_past_code ht hpc).symm
  · have hlt : s.pc.toNat < s.codeLen := not_le.mp hpc
    cases hf : s.fetched with
    | noByte =>
      exact (engineStep_of_noByte ht' hlt (s.fetched_start.trans hf)).trans (engineStep_of_noByte ht hlt hf).symm
    | unknownOpcode =>
      exact (engineStep_of_unknownOpcode ht' hlt (s.fetched_start.trans hf)).trans (engineStep_of_unknownOpcode ht hlt hf).symm
    | truncated =>
      exact (engineStep_of_truncated ht' hlt (s.fetched_start.trans hf)).trans (engineStep_of_truncated ht hlt hf).symm
    | ok i rest => exact (engineStep_of_ok ht' hlt (s.fetched_start.trans hf)).trans (engineStep_of_ok ht hlt hf).symm

/-- Bytes that stand in memory and fit the window are what the window begins with. -/
theorem State.window_of_holdsAt {s : State} {n a : Nat} {bs : List Byte} (h : s.HoldsAt a bs) (hn : bs.length ≤ n) :
    ∃ rest, s.window n a = bs ++ rest := by
  have hpre : bs <+: s.window n a := List.prefix_iff_getElem?.mpr fun k hk => by
    rw [State.window_getElem?, if_pos (hk.trans_le hn)]
    exact h k bs[k] (List.getElem?_eq_getElem hk)
  obtain ⟨rest, hrest⟩ := hpre
  exact ⟨rest, hrest.symm⟩

theorem State.holdsAt_singleton {s : State} {a : Nat} {b : Byte} (h : s.memRead a = some b) : s.HoldsAt a [b] := by
  intro k c hk
  cases k with
  | zero => exact h.trans hk
  | succ k => cases hk

/-- R106: an instruction whose encoding stands at `pc` is the one fetched. -/
theorem State.fetched_of_holdsAt {s : State} (hm : s.cfg.opcodeMap.valid = true) {i : Instr}
    (h : s.HoldsAt s.pc.toNat (encode s.cfg.opcodeMap i)) : ∃ rest, s.fetched = .ok i rest := by
  have hlen : (encode s.cfg.opcodeMap i).length ≤ maxLength := by
    rw [length_encode]
    exact i.mnemonic.format.length_le
  obtain ⟨rest, hw⟩ := State.window_of_holdsAt h hlen
  exact ⟨rest, (congrArg (decode _) hw).trans (decode_encode_append hm i rest)⟩

/-- A fetch inside memory decodes the opcode byte at `pc` and the bytes after it, as far as window and memory reach. -/
theorem State.fetched_of_memRead {s : State} {op : Byte} (h : s.memRead s.pc.toNat = some op) :
    ∃ bs, s.fetched = decode s.cfg.opcodeMap (op :: bs) ∧ bs.length + 1 = min maxLength (s.cfg.memSize - s.pc.toNat) := by
  have hlen := State.window_length s maxLength s.pc.toNat
  have hop := State.window_getElem? s maxLength s.pc.toNat 0
  rw [if_pos (by decide), Nat.add_zero, h] at hop
  cases hw : s.window maxLength s.pc.toNat with
  | nil =>
    rw [hw] at hop
    cases hop
  | cons b bs =>
    rw [hw] at hop hlen
    cases hop
    exact ⟨bs, congrArg (decode _) hw, hlen⟩

/-- R105: the fetch fails on the opcode exactly where the map does not assign it. -/
theorem State.fetched_eq_unknownOpcode_iff {s : State} {op : Byte} (h : s.memRead s.pc.toNat = some op) :
    s.fetched = .unknownOpcode ↔ ∀ n, s.cfg.opcodeMap.byteOf n ≠ op := by
  obtain ⟨bs, hf, -⟩ := State.fetched_of_memRead h
  rw [hf, decode_cons_eq_unknownOpcode_iff, OpcodeMap.ofByte_eq_none_iff_byteOf]

/-- R106: the fetch misses an operand byte exactly where the format of the opcode reaches past memory. -/
theorem State.fetched_eq_truncated_iff {s : State} {op : Byte} (h : s.memRead s.pc.toNat = some op) :
    s.fetched = .truncated ↔
      ∃ n, s.cfg.opcodeMap.ofByte op = some n ∧ s.cfg.memSize ≤ s.pc.toNat + n.format.length - 1 := by
  obtain ⟨bs, hf, hlen⟩ := State.fetched_of_memRead h
  rw [hf, decode_cons_eq_truncated_iff, hlen]
  refine exists_congr fun n => and_congr_right fun _ => ?_
  have hpos := n.format.length_pos
  have hle := n.format.length_le
  omega

/-! ## Steps over a program counter inside the code -/

theorem State.Inv.opcodeMap_valid {s : State} (h : s.Inv) : s.cfg.opcodeMap.valid = true :=
  ((valid_iff _).mp h.cfg_valid).2.2.2.2.2

theorem State.Inv.exists_opcode {s : State} (h : s.Inv) (hpc : s.pc.toNat < s.codeLen) : ∃ op, s.memRead s.pc.toNat = some op :=
  ⟨_, State.memRead_of_lt s (h.pc_lt_memSize hpc)⟩

/-- R26: memory ends so far below 2^32 that `pc` does not wrap over an instruction. -/
theorem State.Inv.npc_toNat {s : State} (h : s.Inv) (hpc : s.pc.toNat < s.codeLen) (i : Instr) :
    (s.pc + BitVec.ofNat 32 i.length).toNat = s.pc.toNat + i.length := by
  have hlt := h.pc_lt_memSize hpc
  have hlen : i.length ≤ 6 := i.mnemonic.format.length_le
  obtain ⟨-, hmem, -⟩ := (valid_iff _).mp h.cfg_valid
  rw [BitVec.toNat_add, BitVec.toNat_ofNat]
  omega

/-- The step runs the instruction whose encoding stands at `pc`. -/
theorem State.Inv.step_of_holdsAt {s : State} (h : s.Inv) (ht : s.terminal = false) (hpc : s.pc.toNat < s.codeLen) {i : Instr}
    (hi : s.HoldsAt s.pc.toNat (encode s.cfg.opcodeMap i)) : step s = exec i (s.start.advance i.length) := by
  obtain ⟨rest, hf⟩ := State.fetched_of_holdsAt h.opcodeMap_valid hi
  exact engineStep_of_ok ht hpc hf

/-- The same from RUNNING, where starting changes nothing. -/
theorem State.Inv.step_of_running {s : State} (h : s.Inv) (hs : s.status = .running) (hpc : s.pc.toNat < s.codeLen) {i : Instr}
    (hi : s.HoldsAt s.pc.toNat (encode s.cfg.opcodeMap i)) : step s = exec i (s.advance i.length) := by
  rw [h.step_of_holdsAt ((State.terminal_eq_false s).mpr (.inr hs)) hpc hi, State.start_of_running hs]

theorem exists_faultedFrom_of_step {s : State} {n : Nat} {r : StopReason}
    (h : step s = .next ((s.start.advance n).raise r)) : ∃ t, step s = .next t ∧ s.FaultedFrom r t :=
  ⟨_, h, faultedFrom_raise_advance s n r⟩

/-- A full stack is reported by PUSH and CALL, well-formed ones. -/
theorem exec_of_stack_full {i : Instr} {s : State} (hi : (∃ rs, i = .push rs) ∨ ∃ a, i = .call a) (hwf : i.wf s.cfg = true)
    (h : s.sp = s.cfg.stackDepth) : exec i s = .next (s.raise .stackOverflow) := by
  rcases hi with ⟨rs, rfl⟩ | ⟨a, rfl⟩
  · exact exec_push_of_full hwf h
  · exact exec_call_of_full a h

/-- An empty stack is reported by POP and RET, well-formed ones. -/
theorem exec_of_stack_empty {i : Instr} {s : State} (hi : (∃ rd, i = .pop rd) ∨ i = .ret) (hwf : i.wf s.cfg = true)
    (h : s.sp = 0) : exec i s = .next (s.raise .stackUnderflow) := by
  rcases hi with ⟨rd, rfl⟩ | rfl
  · exact exec_pop_of_empty hwf h
  · exact exec_ret_of_empty h

theorem Instr.wf_eq_false_iff (i : Instr) (c : Config) : i.wf c = false ↔ ∃ r ∈ i.regs, c.regCount ≤ r.toNat := by
  simp [Instr.wf]

/-! ## The statements -/

/-- Settles O13: the engine's steps but the terminal one end RUNNING only with a fetched instruction, and never READY. -/
theorem firstStepRunsAndLeavesReady : Obligations.FirstStepRunsAndLeavesReady := by
  intro s t h
  refine ⟨fun hs => (engineStep_start exec ((State.terminal_eq_false s).mpr (.inl hs))).symm, ?_⟩
  rw [step_eq_stepWith] at h
  rcases stepWith_cases h with ⟨hs, rfl⟩ | ⟨-, -, rfl⟩ | ⟨-, -, -, rfl⟩ | ⟨-, -, -, rfl⟩ | ⟨i, rest, -, -, hf, he⟩
  · rcases (State.terminal_eq_true t).mp hs with hst | hst <;> simp [hst]
  · simp
  · simp
  · simp
  · refine ⟨?_, fun _ => ⟨i, rest, hf⟩⟩
    rcases he.status_cases with ⟨hst, -⟩ | ⟨hst, -⟩ | hst <;> simp [hst]

/-- Settles O14: the test of `pc` is made before the fetch. -/
theorem pcAtOrPastTheCodeHaltsTheRun : Obligations.PcAtOrPastTheCodeHaltsTheRun :=
  fun s hs hpc => engineStep_of_past_code ((State.terminal_eq_false s).mpr hs) hpc

/-- Settles O15: the engine's last case, and the room memory leaves below 2^32. -/
theorem stepRunsTheDecodedInstruction : Obligations.StepRunsTheDecodedInstruction :=
  fun s i _ hs hpc hf => ⟨engineStep_of_ok ((State.terminal_eq_false s).mpr hs) hpc hf, fun h => h.npc_toNat hpc i⟩

/-- Settles O16: the window begins with the encoding, which decodes to the instruction. -/
theorem stepRunsTheInstructionInMemory : Obligations.StepRunsTheInstructionInMemory := by
  intro s i h hs hpc hi
  have hnpc : s.pc + BitVec.ofNat 32 i.length = BitVec.ofNat 32 (s.pc.toNat + i.length) := by
    rw [BitVec.ofNat_add, BitVec.ofNat_toNat, BitVec.setWidth_eq]
  rw [← hnpc]
  exact h.step_of_holdsAt ((State.terminal_eq_false s).mpr hs) hpc hi

/-- Settles O17: one equation of the engine or of the fetched instruction for each stop. -/
theorem stepReportsTheFirstStopInOrder : Obligations.StepReportsTheFirstStopInOrder := by
  intro s h
  refine ⟨engineStep_of_terminal exec, fun ht hpc => ⟨_, engineStep_of_past_code ht hpc, rfl, rfl⟩,
    fun ht hpc op hop => ⟨fun hn => ?_, fun n hn hend => ?_⟩, fun ht hpc i rest hf => ?_⟩
  · exact exists_faultedFrom_of_step (engineStep_of_unknownOpcode ht hpc ((State.fetched_eq_unknownOpcode_iff hop).mpr hn))
  · have hby : s.cfg.opcodeMap.ofByte op = some n := hn ▸ OpcodeMap.ofByte_byteOf h.opcodeMap_valid n
    exact exists_faultedFrom_of_step
      (engineStep_of_truncated ht hpc ((State.fetched_eq_truncated_iff hop).mpr ⟨n, hby, hend⟩))
  · have hstep : step s = exec i (s.start.advance i.length) := engineStep_of_ok ht hpc hf
    refine ⟨fun hwf => ?_, fun hwf => ⟨fun hi hfull => ?_, fun hi hempty => ?_, fun rd rs1 rs2 hi hzero => ?_⟩⟩
    · exact exists_faultedFrom_of_step (hstep.trans (exec_of_not_wf hwf))
    · exact exists_faultedFrom_of_step (hstep.trans (exec_of_stack_full hi hwf hfull))
    · exact exists_faultedFrom_of_step (hstep.trans (exec_of_stack_empty hi hwf hempty))
    · subst hi
      exact exists_faultedFrom_of_step (hstep.trans (exec_mod_of_zero hwf hzero))

/-- Settles O19: the cases of the engine, and for the fetched instruction the ways in which it can end. -/
theorem stopReasonTellsWhatHappened : Obligations.StopReasonTellsWhatHappened := by
  intro s t h hs hstep
  rw [step_eq_stepWith] at hstep
  rcases stepWith_cases hstep with ⟨hs', -⟩ | ⟨-, hpc, rfl⟩ | ⟨-, hpc, hf, rfl⟩ | ⟨-, hpc, hf, rfl⟩ | ⟨i, rest, -, -, hf, he⟩
  · cases hs.symm.trans hs'
  · exact ⟨rfl, hpc⟩
  · obtain ⟨op, hop⟩ := h.exists_opcode hpc
    exact ⟨rfl, op, hop, (State.fetched_eq_unknownOpcode_iff hop).mp hf⟩
  · obtain ⟨op, hop⟩ := h.exists_opcode hpc
    obtain ⟨n, hn, hend⟩ := (State.fetched_eq_truncated_iff hop).mp hf
    exact ⟨rfl, n, OpcodeMap.byteOf_of_ofByte hn ▸ hop, hend⟩
  · rcases he.stop_cases with ⟨hst, hreason⟩ | ⟨rfl, rfl⟩ | ⟨hwf, rfl⟩ | ⟨hi, hsp, rfl⟩ | ⟨hi, hsp, rfl⟩ |
      ⟨⟨rd, rs1, rs2, rfl, hzero⟩, rfl⟩
    · rw [hreason.trans (h.stopReason_none hs)]
      exact hst
    · exact ⟨rfl, rest, hf⟩
    · exact ⟨rfl, i, rest, hf, (Instr.wf_eq_false_iff i s.cfg).mp hwf⟩
    · refine ⟨rfl, hsp, rest, hi.imp ?_ ?_⟩
      · exact fun ⟨rs, hrs⟩ => ⟨rs, hrs ▸ hf⟩
      · exact fun ⟨a, ha⟩ => ⟨a, ha ▸ hf⟩
    · refine ⟨rfl, hsp, rest, hi.imp ?_ ?_⟩
      · exact fun ⟨rd, hrd⟩ => ⟨rd, hrd ▸ hf⟩
      · exact fun hret => hret ▸ hf
    · exact ⟨rfl, rd, rs1, rs2, rest, hf, hzero⟩

/-- Settles O21: on any instruction but RANDOM the body with the draw given is `exec`. -/
theorem onlyRandomReadsTheDraw : Obligations.OnlyRandomReadsTheDraw := by
  intro r r' s hr
  refine engineStep_congr fun i rest hf t => ?_
  have hi : ∀ rd, i ≠ .random rd := fun rd h => hr rd rest (h ▸ hf)
  rw [execWith_of_not_random r hi, execWith_of_not_random r' hi]

/-- Settles O39: after the store the one byte of the instruction's encoding stands at `pc`. -/
theorem storeIsSeenByTheNextFetch : Obligations.StoreIsSeenByTheNextFetch := by
  intro s t rs ra i h hs hpc hi haddr hbyte hwf ht
  have hlt := h.dataAddr_lt ra
  have htInv := h.of_effect (effect_of_exec ht)
  obtain rfl := Host.Outcome.next.inj ((exec_storeMem_of_wf hwf hlt).symm.trans ht)
  have hread := State.memRead_write_self h.mem_wf hlt (truncByte (s.readReg rs))
  obtain ⟨hone, hlen⟩ : encode s.cfg.opcodeMap i = [s.cfg.opcodeMap.byteOf i.mnemonic] ∧ i.length = 1 := by
    rcases hi with rfl | rfl <;> exact ⟨rfl, rfl⟩
  have hholds := State.holdsAt_singleton hread
  rw [hbyte, ← hone, haddr] at hholds
  rw [hbyte, haddr] at htInv ⊢
  refine (htInv.step_of_running hs hpc hholds).trans ?_
  rw [hlen]
  rfl

/-- Settles O41: the bodies by the value of the target, and the next step by the test of `pc` before the fetch. -/
theorem jumpsSetThePcToTheAddress : Obligations.JumpsSetThePcToTheAddress := by
  intro s a ah al
  rw [← zextAddr_eq_ofNat]
  refine ⟨congrArg (0x0C :: ·) (be16Bytes_be16 ah al), congrArg (0x0D :: ·) (be16Bytes_be16 ah al),
    congrArg (0x0E :: ·) (be16Bytes_be16 ah al), be16_toNat ah al, exec_jmp a s, exec_jz a s, exec_jnz a s, fun hs hle => ?_⟩
  refine engineStep_of_past_code (s := s.setPc (zextAddr a)) ((State.terminal_eq_false s).mpr (.inr hs)) ?_
  rw [State.setPc_pc, zextAddr_toNat]
  exact hle

/-- Settles O49: the CALL pushes the address after it, and the RET at the target pops it. -/
theorem callThenRetComesBackAfterTheCall : Obligations.CallThenRetComesBackAfterTheCall := by
  intro s a h hs hpc hcall ha hret hsp
  have ht := (h.step_of_holdsAt ((State.terminal_eq_false s).mpr hs) hpc hcall).trans (exec_call_of_room a hsp.ne)
  have htInv := h.of_stepWith ((step_eq_stepWith s).symm.trans ht)
  have htpc : (zextAddr a).toNat = a.toNat := zextAddr_toNat a
  have hu := (htInv.step_of_holdsAt (i := .ret) rfl (htpc ▸ ha) (htpc ▸ hret)).trans (exec_ret_of_pos (Nat.succ_ne_zero _))
  refine ⟨_, _, ht, htpc, hu, ?_, rfl, rfl⟩
  have htop : (s.stk.set s.sp (s.pc + BitVec.ofNat 32 3)).getD s.sp 0#32 = s.pc + BitVec.ofNat 32 3 := by
    rw [List.getD_eq_getElem?_getD, h.getElem?_set_sp hsp.ne, Option.getD_some]
  exact (congrArg BitVec.toNat htop).trans (h.npc_toNat hpc (.call a))

end Sys2Proof.Machine

/-! PROOFS of the statements on configurations, reset and the host's transactions (spec/00_scope.md section 4, spec/10_state.md
section 10, spec/70_reset_and_hazards.md sections 1 and 2): what each transaction answers in each of its cases, then the
statements. -/

namespace Sys2Proof

theorem Mnemonic.all_nodup : Mnemonic.all.Nodup := by
  decide

/-- R7: a valid map gives different mnemonics different bytes and leaves 0xFF unused. -/
theorem OpcodeMap.valid_iff_byteOf (m : OpcodeMap) :
    m.valid = true ↔ (∀ n n', m.byteOf n = m.byteOf n' → n = n') ∧ ∀ n, m.byteOf n ≠ 0xFF#8 := by
  rw [OpcodeMap.valid_iff, OpcodeMap.mem_bytes_iff, not_exists, OpcodeMap.bytes_eq_map,
    List.nodup_map_iff_inj_on Mnemonic.all_nodup]
  simp only [Mnemonic.mem_all, forall_const]

end Sys2Proof

namespace Sys2Proof.Machine

/-! ## Creation and reset -/

theorem createInstance_of_invalid {c : Config} {h : HostParams} (hbad : ¬ (c.valid = true ∧ h.valid c = true)) :
    createInstance c h = .refused .invalidConfiguration :=
  if_neg (by rwa [Bool.and_eq_true])

theorem readElement_reg_resetWith {c : Config} {i : Nat} (hi : i < c.regCount) :
    readElement (State.resetWith c) (.reg i) = some 0 := by
  simp [readElement, State.resetWith, hi]

theorem readElement_stk_resetWith {c : Config} {j : Nat} (hj : j < c.stackDepth) :
    readElement (State.resetWith c) (.stk j) = some 0 := by
  simp [readElement, State.resetWith, hj]

/-- R40, R67: after reset every byte inside memory is zero. -/
theorem memRead_resetWith {c : Config} {a : Nat} (ha : a < c.memSize) : (State.resetWith c).memRead a = some 0#8 :=
  State.memRead_of_lt (State.resetWith c) ha

theorem inv_resetWith {c : Config} (hc : c.valid = true) : (State.resetWith c).Inv where
  cfg_valid := hc
  regs_length := List.length_replicate
  stk_length := List.length_replicate
  sp_le := Nat.zero_le _
  codeLen_le := Nat.zero_le _
  mem_wf := rfl
  mem_below := rfl
  reason_ok := rfl
  unloaded := fun _ => rfl

/-! ## Bytes written by the host -/

theorem State.Inv.withMem {s : State} (h : s.Inv) {m : Memory} (hwf : m.wf = true) (hb : m.below s.cfg.memSize = true) :
    (s.withMem m).Inv :=
  ⟨h.1, h.2, h.3, h.4, h.5, hwf, hb, h.8, h.9⟩

/-- Bytes that fit in memory are written: only memory changes, and it reads as the bytes in their range and as before
elsewhere. -/
theorem State.Inv.writeBytes_of_fits {s : State} (h : s.Inv) {base : Nat} {bs : List Byte}
    (hfit : base + bs.length ≤ s.cfg.memSize) :
    ∃ m, s.writeBytes base bs = some (s.withMem m) ∧ (s.withMem m).Inv ∧
      ∀ a, a < s.cfg.memSize →
        (s.withMem m).memRead a = if base ≤ a ∧ a < base + bs.length then bs[a - base]? else s.memRead a := by
  obtain ⟨m, hw, hwf, hb, hread⟩ := State.writeBytes_spec h.mem_wf h.mem_below hfit
  refine ⟨m, hw, h.withMem hwf hb, fun a ha => ?_⟩
  rw [State.memRead_of_lt s ha]
  refine (State.memRead_of_lt (s.withMem m) ha).trans ((congrArg some (hread a)).trans ?_)
  by_cases hin : base ≤ a ∧ a < base + bs.length
  · have hlt : a - base < bs.length := by omega
    rw [if_pos hin, if_pos hin, List.getD_eq_getElem _ _ hlt, List.getElem?_eq_getElem hlt]
  · rw [if_neg hin, if_neg hin]

/-! ## `load_program` -/

/-- The state after a load that returned OK, with its memory (R282). -/
def State.withProgram (s : State) (m : Memory) (len : Nat) : State :=
  { s with mem := m, codeLen := len, programLoaded := true }

theorem loadProgramLegal_iff (s : State) : s.loadProgramLegal = true ↔ s.status = .ready ∧ s.programLoaded = false := by
  simp [State.loadProgramLegal]

theorem loadProgram_of_not_legal {s : State} (buf : List Byte) (h : s.status ≠ .ready ∨ s.programLoaded = true) :
    loadProgram buf s = .refused .loadProgramNotLegal := by
  have hl : ¬ s.loadProgramLegal = true := by
    rw [loadProgramLegal_iff]
    rcases h with h | h <;> simp [h]
  exact if_pos (by simpa using hl)

theorem loadProgram_of_too_large {s : State} {buf : List Byte} (hs : s.status = .ready) (hl : s.programLoaded = false)
    (hlen : s.cfg.codeCapacity < buf.length) : loadProgram buf s = .next (.programTooLarge, s) := by
  rw [loadProgram, if_neg (by simp [(loadProgramLegal_iff s).mpr ⟨hs, hl⟩]), if_pos hlen]

/-- A program that fits is loaded: the state after it, its memory, and the invariant. -/
theorem State.Inv.loadProgram_of_fits {s : State} (h : s.Inv) {buf : List Byte} (hs : s.status = .ready)
    (hl : s.programLoaded = false) (hlen : buf.length ≤ s.cfg.codeCapacity) :
    ∃ m, loadProgram buf s = .next (.ok, s.withProgram m buf.length) ∧ (s.withProgram m buf.length).Inv ∧
      ∀ a, a < s.cfg.memSize →
        (s.withProgram m buf.length).memRead a = if a < buf.length then buf[a]? else s.memRead a := by
  obtain ⟨-, -, -, -, hcap, -⟩ := (valid_iff _).mp h.cfg_valid
  obtain ⟨m, hw, hm, hread⟩ := h.writeBytes_of_fits (base := 0) (bs := buf) (by omega)
  refine ⟨m, ?_, ⟨hm.1, hm.2, hm.3, hm.4, hlen, hm.6, hm.7, hm.8, nofun⟩, fun a ha => ?_⟩
  · rw [loadProgram, if_neg (by simp [(loadProgramLegal_iff s).mpr ⟨hs, hl⟩]), if_neg hlen.not_gt, hw]
    rfl
  · refine Eq.trans (hread a ha) ?_
    simp

/-- Whatever `load_program` answers, the invariant is kept. -/
theorem State.Inv.of_loadProgram {s t : State} (h : s.Inv) {buf : List Byte} {ans : LoadAnswer}
    (hload : loadProgram buf s = .next (ans, t)) : t.Inv := by
  by_cases hlegal : s.status = .ready ∧ s.programLoaded = false
  · obtain ⟨hs, hl⟩ := hlegal
    rcases le_or_gt buf.length s.cfg.codeCapacity with hlen | hlen
    · obtain ⟨m, hfits, hInv, -⟩ := h.loadProgram_of_fits hs hl hlen
      cases hfits.symm.trans hload
      exact hInv
    · cases (loadProgram_of_too_large hs hl hlen).symm.trans hload
      exact h
  · have hout := (not_and_or.mp hlegal).imp_right Bool.eq_true_of_not_eq_false
    cases (loadProgram_of_not_legal buf hout).symm.trans hload

/-! ## `load_input` -/

theorem loadInputLegal_iff (s : State) : s.loadInputLegal = true ↔ s.status = .ready ∧ s.programLoaded = true := by
  simp [State.loadInputLegal]

theorem loadInput_of_invalid {s : State} {h : HostParams} (buf : List Byte) (hv : h.valid s.cfg = false) :
    loadInput h buf s = .refused .invalidConfiguration :=
  if_pos (by simp [hv])

theorem loadInput_of_not_legal {s : State} {h : HostParams} (buf : List Byte) (hv : h.valid s.cfg = true)
    (hl : s.status ≠ .ready ∨ s.programLoaded = false) : loadInput h buf s = .refused .loadInputNotLegal := by
  have hl' : ¬ s.loadInputLegal = true := by
    rw [loadInputLegal_iff]
    rcases hl with hl | hl <;> simp [hl]
  rw [loadInput, if_neg (by simp [hv]), if_pos (by simpa using hl')]

theorem loadInput_of_too_long {s : State} {h : HostParams} {buf : List Byte} (hv : h.valid s.cfg = true)
    (hs : s.status = .ready) (hl : s.programLoaded = true) (hlen : h.inputCapacity < buf.length) :
    loadInput h buf s = .refused .inputTooLong := by
  rw [loadInput, if_neg (by simp [hv]), if_neg (by simp [(loadInputLegal_iff s).mpr ⟨hs, hl⟩]), if_pos hlen]

/-- An input that fits is copied: the state after it, its memory, and the invariant. -/
theorem State.Inv.loadInput_of_fits {s : State} (hInv : s.Inv) {h : HostParams} {buf : List Byte} (hv : h.valid s.cfg = true)
    (hs : s.status = .ready) (hl : s.programLoaded = true) (hlen : buf.length ≤ h.inputCapacity) :
    ∃ m, loadInput h buf s = .next (s.withMem m) ∧ (s.withMem m).Inv ∧
      ∀ a, a < s.cfg.memSize →
        (s.withMem m).memRead a =
          if h.inputBase ≤ a ∧ a < h.inputBase + buf.length then buf[a - h.inputBase]? else s.memRead a := by
  obtain ⟨hin, -⟩ := (hostValid_iff _ _).mp hv
  obtain ⟨m, hw, hm, hread⟩ := hInv.writeBytes_of_fits (base := h.inputBase) (bs := buf) (by omega)
  refine ⟨m, ?_, hm, hread⟩
  rw [loadInput, if_neg (by simp [hv]), if_neg (by simp [(loadInputLegal_iff s).mpr ⟨hs, hl⟩]), if_neg hlen.not_gt, hw]

/-- Where `load_input` answers a next state, the invariant is kept. -/
theorem State.Inv.of_loadInput {s t : State} (hInv : s.Inv) {h : HostParams} {buf : List Byte}
    (hload : loadInput h buf s = .next t) : t.Inv := by
  cases hv : h.valid s.cfg with
  | false => cases (loadInput_of_invalid buf hv).symm.trans hload
  | true =>
    by_cases hlegal : s.status = .ready ∧ s.programLoaded = true
    · obtain ⟨hs, hl⟩ := hlegal
      rcases le_or_gt buf.length h.inputCapacity with hlen | hlen
      · obtain ⟨m, hfits, hm, -⟩ := hInv.loadInput_of_fits hv hs hl hlen
        cases hfits.symm.trans hload
        exact hm
      · cases (loadInput_of_too_long hv hs hl hlen).symm.trans hload
    · have hout := (not_and_or.mp hlegal).imp_right Bool.eq_false_of_not_eq_true
      cases (loadInput_of_not_legal buf hv hout).symm.trans hload

/-! ## `abort` and the budgeted run -/

theorem abort_of_terminal {s : State} (h : s.terminal = true) : abort s = s := if_pos h

theorem abort_of_not_terminal {s : State} (h : s.terminal = false) : abort s = s.raise .budgetExhausted :=
  if_neg (by simp [h])

theorem terminal_abort (s : State) : (abort s).terminal = true := by
  cases h : s.terminal with
  | true => rwa [abort_of_terminal h]
  | false =>
    rw [abort_of_not_terminal h]
    rfl

theorem codeLen_abort (s : State) : (abort s).codeLen = s.codeLen := by
  unfold abort
  split <;> rfl

theorem State.Inv.abort {s : State} (h : s.Inv) : (abort s).Inv := by
  cases ht : s.terminal with
  | true => rwa [abort_of_terminal ht]
  | false =>
    rw [abort_of_not_terminal ht]
    exact h.raise rfl

theorem runWithBudget_of_terminal {s : State} (h : s.terminal = true) (n : Nat) : runWithBudget n s = .next s := by
  cases n with
  | zero => exact congrArg Host.Outcome.next (abort_of_terminal h)
  | succ n => exact if_pos h

theorem runWithBudget_succ {s t : State} (h : s.terminal = false) (hstep : step s = .next t) (n : Nat) :
    runWithBudget (n + 1) s = runWithBudget n t := by
  rw [runWithBudget, if_neg (by simp [h]), hstep]

/-- R112, R115: a run within a budget ends, by induction on the budget. -/
theorem State.Inv.runWithBudget_ends {s : State} (h : s.Inv) (n : Nat) :
    ∃ t, runWithBudget n s = .next t ∧ t.Inv ∧ t.terminal = true ∧ t.codeLen = s.codeLen := by
  induction n generalizing s with
  | zero => exact ⟨_, rfl, h.abort, terminal_abort s, codeLen_abort s⟩
  | succ n ih =>
    cases ht : s.terminal with
    | true => exact ⟨s, runWithBudget_of_terminal ht _, h, ht, rfl⟩
    | false =>
      obtain ⟨u, hu⟩ := h.exists_stepWith_next (Config.randByte s.draws)
      obtain ⟨hlen, -, -⟩ := stepWith_fixed_fields hu
      obtain ⟨t, hrun, htInv, htt, htlen⟩ := ih (h.of_stepWith hu)
      exact ⟨t, (runWithBudget_succ ht ((step_eq_stepWith s).trans hu) n).trans hrun, htInv, htt, htlen.trans hlen⟩

/-! ## The boot -/

section
variable {c : Config} {h : HostParams} {program : List Byte} {s0 s1 : State}

/-- R284: without an input the steps follow the load. -/
theorem boot_of_program (hc : createInstance c h = .next s0) (hp : loadProgram program s0 = .next (.ok, s1)) :
    boot c h program none = runWithBudget h.budget s1 := by
  simp only [boot, hc, hp]

/-- R284: with an input they follow its load. -/
theorem boot_of_input {s2 : State} {buf : List Byte} (hc : createInstance c h = .next s0)
    (hp : loadProgram program s0 = .next (.ok, s1)) (hi : loadInput h buf s1 = .next s2) :
    boot c h program (some buf) = runWithBudget h.budget s2 := by
  simp only [boot, hc, hp, hi]

end

/-! ## The statements -/

/-- Settles O7: the two checks are the constraints of R7. -/
theorem configurationsThatBreakTheConstraintsAreRefused : Obligations.ConfigurationsThatBreakTheConstraintsAreRefused := by
  intro c h ok
  have hok : ok ↔ c.valid = true ∧ h.valid c = true := by
    have hdepth := Nat.zero_le c.stackDepth
    rw [valid_iff, hostValid_iff, OpcodeMap.valid_iff_byteOf]
    tauto
  refine ⟨fun hgood => ?_, fun hbad => createInstance_of_invalid (mt hok.mpr hbad)⟩
  obtain ⟨hc, hh⟩ := hok.mp hgood
  exact createInstance_of_valid hc hh

/-- Settles O8: each element of the reset state reads as its table value. -/
theorem resetLeavesEveryElementAtItsTableValue : Obligations.ResetLeavesEveryElementAtItsTableValue :=
  fun _ _ hc hh => ⟨_, createInstance_of_valid hc hh, fun _ => readElement_reg_resetWith, rfl, rfl,
    fun _ => readElement_stk_resetWith, rfl, fun _ ha => congrArg (Option.map BitVec.toNat) (memRead_resetWith ha),
    rfl, rfl, rfl, rfl⟩

/-- Settles O9: every clause of the invariant, on the reset state. -/
theorem invariantHoldsAtReset : Obligations.InvariantHoldsAtReset :=
  ⟨inv_resetWith (by decide), fun _ hc => inv_resetWith hc⟩

/-- Settles O50: by the status. -/
theorem abortFaultsARunThatHasNotEnded : Obligations.AbortFaultsARunThatHasNotEnded :=
  fun s => ⟨fun hs => abort_of_not_terminal ((State.terminal_eq_false s).mpr hs),
    fun hs => abort_of_terminal ((State.terminal_eq_true s).mpr hs)⟩

/-- Settles O51: the three answers of `load_program`. -/
theorem loadProgramCopiesOrLeavesUntouched : Obligations.LoadProgramCopiesOrLeavesUntouched := by
  intro s buf h
  refine ⟨fun hs hl hlen => ?_, fun hs hl hlen => loadProgram_of_too_large hs hl hlen, loadProgram_of_not_legal buf⟩
  obtain ⟨m, hload, -, hread⟩ := h.loadProgram_of_fits hs hl hlen
  exact ⟨_, hload, rfl, hread⟩

/-- Settles O52: the four answers of `load_input`. -/
theorem loadInputCopiesIntoTheInputRegion : Obligations.LoadInputCopiesIntoTheInputRegion := by
  intro s h buf hInv
  refine ⟨fun hv => ⟨fun hs hl hlen => ?_, loadInput_of_too_long hv, loadInput_of_not_legal buf hv⟩, loadInput_of_invalid buf⟩
  obtain ⟨m, hload, -, hread⟩ := hInv.loadInput_of_fits hv hs hl hlen
  exact ⟨_, hload, rfl, hread⟩

/-- Settles O53: the input is read over the program, and the program over the zeros of reset. -/
theorem memoryAtTheFirstStep : Obligations.MemoryAtTheFirstStep := by
  intro c h program input hc hh hprogram hinput
  obtain ⟨m1, hload1, hInv1, hread1⟩ := (inv_resetWith hc).loadProgram_of_fits rfl rfl hprogram
  obtain ⟨m2, hload2, -, hread2⟩ := hInv1.loadInput_of_fits (h := h) hh rfl rfl hinput
  refine ⟨_, _, _, createInstance_of_valid hc hh, hload1, hload2, rfl, rfl, rfl, fun a ha => ?_⟩
  rw [hread2 a ha, hread1 a ha, memRead_resetWith ha]

/-- Settles O54: each transaction answers the state of its success case, or the same state, or refuses. -/
theorem hostTransactionsKeepTheInvariant : Obligations.HostTransactionsKeepTheInvariant :=
  fun _ h => ⟨fun _ _ _ => h.of_loadProgram, fun _ _ _ => h.of_loadInput, h.abort⟩

/-- Settles O55: the run ends by induction on the budget; with budget 0 it is the abort. -/
theorem budgetedRunEndsInATerminalStatus : Obligations.BudgetedRunEndsInATerminalStatus := by
  intro n s h
  obtain ⟨t, hrun, htInv, htt, hlen⟩ := h.runWithBudget_ends n
  refine ⟨t, hrun, htInv, htt, hlen, fun hn hs => ?_⟩
  subst hn
  obtain rfl := Host.Outcome.next.inj hrun
  rw [abort_of_not_terminal hs]
  rfl

/-- Settles O56: both loads succeed, and the run after them ends with the code length they left. -/
theorem bootedRunEndsInATerminalStatus : Obligations.BootedRunEndsInATerminalStatus := by
  intro c h program input hc hh hprogram hinput
  have hcreate := createInstance_of_valid hc hh
  obtain ⟨m1, hload1, hInv1, -⟩ := (inv_resetWith hc).loadProgram_of_fits rfl rfl hprogram
  cases input with
  | none =>
    obtain ⟨t, hrun, htInv, htt, hlen⟩ := hInv1.runWithBudget_ends h.budget
    exact ⟨t, (boot_of_program hcreate hload1).trans hrun, htt, hlen, htInv⟩
  | some buf =>
    obtain ⟨m2, hload2, hInv2, -⟩ := hInv1.loadInput_of_fits (h := h) hh rfl rfl (hinput buf rfl)
    obtain ⟨t, hrun, htInv, htt, hlen⟩ := hInv2.runWithBudget_ends h.budget
    exact ⟨t, (boot_of_input hcreate hload1 hload2).trans hrun, htt, hlen, htInv⟩

end Sys2Proof.Machine
